-- ==== Sys2Proof/Word.lean ====
section
/-! DEFINITION. The word of the engine. Rule R13 of spec/00_scope.md makes every number of a rule an exact
integer, and a word an integer in the range of W-bit signed numbers; the width W is a parameter (R7). A word
is therefore held as an integer, and its range is a predicate (`fitsW` in Machine/Flags.lean) that the
machine's invariant states of every cell and register (DESIGN CHOICE, safe: log 1). The other files write `Int`
itself, so that the arithmetic procedures of a proof see it. -/

namespace Sys2Proof

/-- The least word of width W, `-2^(W-1)` (R7). -/
def minWord (W : Nat) : Int := -2 ^ (W - 1)

/-- The greatest word of width W, `2^(W-1) - 1` (R7). -/
def maxWord (W : Nat) : Int := 2 ^ (W - 1) - 1

end Sys2Proof
end

