-- ==== Sys2Proof/Config.lean ====
section
/-! DEFINITION. The configuration of an instance: the six parameters of spec/00_scope.md R7 to R12, fixed at
construction (spec/10_state.md R30, R35). Where the spec leaves a value open, the statements of this package
hold for every value of the parameter: a configuration is a field of State (DESIGN CHOICE, safe: log 2). -/

namespace Sys2Proof

/-- READ_GROWTH (R9): what a data read beyond the tape length does to the length. -/
inductive ReadGrowth where
  /-- The read grows the tape with zero-fill. -/
  | extend
  /-- The read leaves the tape unchanged. -/
  | noExtend
  deriving DecidableEq, Repr

/-- OVERFLOW (R10): what ADD, MUL and ARB do with a result that is no word. -/
inductive OverflowPolicy where
  /-- The instruction raises the fault OVERFLOW. -/
  | fault
  /-- The result is reduced to the congruent word. -/
  | wrap
  deriving DecidableEq, Repr

/-- The parameters of an instance. -/
structure Config where
  /-- W, the word width in bits (R7). -/
  wordWidth : Nat
  /-- MEM_LIMIT, the number of addressable cells (R8). -/
  memLimit : Nat
  /-- READ_GROWTH (R9). -/
  readGrowth : ReadGrowth
  /-- OVERFLOW (R10). -/
  overflow : OverflowPolicy
  /-- RUN_CAP, the iteration bound of the run controller (R11). -/
  runCap : Nat
  /-- INTERACTIVE_INPUT, carried on every input request (R12). -/
  interactiveInput : Bool
  deriving DecidableEq, Repr

/-- The constraints R7 and R8 put on the parameters: `W >= 64` and `1 <= MEM_LIMIT <= 2^(W-1)`. -/
abbrev Config.Valid (c : Config) : Prop :=
  64 ≤ c.wordWidth ∧ 1 ≤ c.memLimit ∧ c.memLimit ≤ 2 ^ (c.wordWidth - 1)

/-- The defaults of R7 to R12 and of the parameter table of spec/92_eei_decisions.md. MEM_LIMIT has no
default (OPEN); 2^20 is the value the spec's test vectors use (DESIGN CHOICE, unsafe: log 3). -/
def Config.default : Config where
  wordWidth := 64
  memLimit := 2 ^ 20
  readGrowth := .extend
  overflow := .fault
  runCap := 1000000
  interactiveInput := false

end Sys2Proof
end

