-- ==== Sys2Proof/Syntax.lean ====
section
/-! DEFINITION. The instructions, one constructor for each row of spec/opcode_table.json. An instruction is
what the decoder reads from ONE instruction word (spec/30_encoding.md R58): the operation and the mode digit of
each operand the operation has. The operand cells are fetched while the instruction runs (R62, R68), since a
fault of an earlier operand comes before the fetch of a later one (spec/60_exceptions.md R111); the mode digits
of operands the operation lacks are never examined (R67), so they are no part of an instruction. -/

namespace Sys2Proof

/-- A mode digit (R63). A digit that is no mode is kept: it faults when its operand is resolved, with the
digit in the fault record (R64, R65, R72). -/
inductive Mode where
  /-- Digit 0. -/
  | position
  /-- Digit 1. -/
  | immediate
  /-- Digit 2. -/
  | relative
  /-- A digit 3 to 9, which is not a mode. -/
  | invalid (digit : Nat)
  deriving DecidableEq, Repr

/-- The ten instructions, operand modes in fetch order (R61). IN is `inp`, since `in` is a word of Lean. -/
inductive Instr where
  /-- ADD, opcode 1. -/
  | add (m0 m1 m2 : Mode)
  /-- MUL, opcode 2. -/
  | mul (m0 m1 m2 : Mode)
  /-- IN, opcode 3. -/
  | inp (m0 : Mode)
  /-- OUT, opcode 4. -/
  | out (m0 : Mode)
  /-- JNZ, opcode 5. -/
  | jnz (m0 m1 : Mode)
  /-- JZ, opcode 6. -/
  | jz (m0 m1 : Mode)
  /-- LT, opcode 7. -/
  | lt (m0 m1 m2 : Mode)
  /-- EQ, opcode 8. -/
  | eq (m0 m1 m2 : Mode)
  /-- ARB, opcode 9. -/
  | arb (m0 : Mode)
  /-- HALT, opcode 99. -/
  | halt
  deriving DecidableEq, Repr

/-- The role of an operand (R61): V or D. -/
inductive Role where
  /-- V, a value operand (R64). -/
  | value
  /-- D, a destination address operand (R65). -/
  | dest
  deriving DecidableEq, Repr

end Sys2Proof
end

