-- ==== Sys2Proof/Machine/State.lean ====
section
/-! DEFINITION. The state of the engine (spec/10_state.md R20), its fault records (spec/60_exceptions.md R106 to
R109), the far ends of its interfaces (R33, R34), and the state after reset (R36, R132). All of it is plain data. -/

namespace Sys2Proof.Machine

/-- The tape as a sparse list of (address, word), addresses strictly rising and no listed word 0. An address
that is not listed holds 0 (spec/20_memory.md R39; log 5). The unit of address is the word: the engine has no
bytes (R37, R49). -/
abbrev Memory := List (Nat × Int)

/-- The canonical form: equal tapes are equal lists. -/
abbrev Memory.wf (m : Memory) : Prop :=
  m.Pairwise (fun x y => x.1 < y.1) ∧ ∀ c ∈ m, c.2 ≠ 0

/-- `run` (spec/10_state.md R26). -/
inductive RunState where
  | ready
  | halted
  | faulted
  deriving DecidableEq, Repr

/-- The access of an OUT_OF_BOUNDS fault (spec/60_exceptions.md R107). -/
inductive Access where
  /-- An opcode fetch or an operand-cell fetch. -/
  | fetch
  /-- The read of a V operand in mode 0 or 2. -/
  | read
  /-- The resolution of a D operand. -/
  | write
  /-- A taken jump to a negative target. -/
  | jump
  deriving DecidableEq, Repr

/-- The kinds of spec/60_exceptions.md R106. The last two are outcomes of host commands, not of instructions. -/
inductive ErrorKind where
  | outOfBounds
  | unknownOpcode
  | invalidMode
  | incompatibleMode
  | overflow
  | inputUnavailable
  | runaway
  | parseError
  deriving DecidableEq, Repr

/-- A machine fault with its information fields (spec/60_exceptions.md R107, R108). -/
inductive FaultInfo where
  /-- The exact address and the access (R107). -/
  | outOfBounds (addr : Int) (access : Access)
  /-- The opcode value, the whole word, and `ip` one past the instruction word (R108). -/
  | unknownOpcode (opcode : Int) (word : Int) (ip : Nat)
  /-- A mode digit 3 to 9 and the operand's number (R108). -/
  | invalidMode (mode operand : Nat)
  /-- Mode 1 on a destination and the operand's number (R108). -/
  | incompatibleMode (mode operand : Nat)
  /-- The opcode and the exact result (R108). -/
  | overflow (opcode : Nat) (result : Int)
  /-- IN received END (R108). -/
  | inputUnavailable
  deriving DecidableEq, Repr

/-- The fault record `(code, kind, info, ip_at_fault, A)` (spec/60_exceptions.md R109). Its code and its kind
are functions of the info (`FaultInfo.kind`, `ErrorKind.code` in Ops.lean). -/
structure FaultRecord where
  /-- `kind` and `info`. -/
  info : FaultInfo
  /-- `ip` at the moment of the raise. -/
  ipAtFault : Nat
  /-- `A`, the address of the instruction word. -/
  instrAddr : Nat
  deriving DecidableEq, Repr

/-- A host answer to an input request (spec/10_state.md R33). -/
inductive InputAnswer where
  | word (v : Int)
  /-- END: the source has no further integer (spec/41_io.md R95). -/
  | endOfInput
  deriving DecidableEq, Repr

/-- An input request (spec/10_state.md R33). -/
structure InputRequest where
  /-- INTERACTIVE_INPUT, carried on the request (spec/41_io.md R94). -/
  interactive : Bool
  deriving DecidableEq, Repr

/-- The step that waits for an input answer (spec/41_io.md R94): what the unfinished IN still needs. -/
structure PendingInput where
  /-- The destination, already resolved. -/
  dest : Nat
  /-- `A`, for the fault record. -/
  instrAddr : Nat
  deriving DecidableEq, Repr

/-- A host command that may stay unfinished while an IN waits (spec/10_state.md R32). -/
inductive RunningCommand where
  | step
  | run
  deriving DecidableEq, Repr

/-- What a step answers in place of a next state. -/
inductive Fault where
  /-- Raised by `step` alone, in a state whose `run` is FAULTED: no step is taken, and the stored record is
  reported (spec/60_exceptions.md R113, R118). No instruction answers with it: a faulting instruction takes a
  next state with the record written. Safe: the engine has no further step there. -/
  | stopped (record : Option FaultRecord)
  deriving DecidableEq, Repr

/-- Why an instruction has no meaning. -/
inductive Refusal where
  /-- For an arm of `exec` that has no meaning yet. No arm answers so: every instruction has its meaning. Safe. -/
  | notModelled (mnemonic : String)
  deriving DecidableEq, Repr

/-- The state. `cfg` and `command` are the model's own fields (log 2, log 10); `input`, `requests` and `output`
are the far ends of the interfaces (log 7, log 9); the others are the spec's (spec/10_state.md R20, R31). -/
structure State where
  /-- The configuration, fixed for the life of the instance (R30, R35). -/
  cfg : Config
  /-- The cells of the tape (R21). -/
  tape : Memory
  /-- `len`, the tape length (R22). -/
  len : Nat
  /-- `ip`, the instruction pointer (R23). -/
  ip : Nat
  /-- `rb`, the relative base (R25). -/
  rb : Int
  /-- `run` (R26). -/
  run : RunState
  /-- `fault` (R27). -/
  fault : Option FaultRecord
  /-- `iter`, the run controller's counter (spec/60_exceptions.md R120). -/
  iter : Nat
  /-- Answers the host has given and the engine has not taken, oldest first (R33). -/
  input : List InputAnswer
  /-- The input requests issued, oldest first (R33). -/
  requests : List InputRequest
  /-- The words sent to the output interface, oldest first (R34). -/
  output : List Int
  /-- The pending input request (R31). -/
  pending : Option PendingInput
  /-- The host command in progress while a request waits (R32). -/
  command : Option RunningCommand
  deriving DecidableEq, Repr

/-- The state after reset: LOAD of the empty program (R36, R132), in the default configuration (log 3, log 4),
with nothing yet sent or received on the interfaces (DESIGN CHOICE: log 7, log 9, log 10). -/
def State.reset : State where
  cfg := Config.default
  tape := []
  len := 0
  ip := 0
  rb := 0
  run := .ready
  fault := none
  iter := 0
  input := []
  requests := []
  output := []
  pending := none
  command := none

end Sys2Proof.Machine
end

