-- ==== Sys2Proof/Machine/Ops.lean ====
section
/-! DEFINITION. The named operations over the tape and the registers, the memory controller's primitives
(spec/20_memory.md section 2), and taking a fault (spec/60_exceptions.md R112) as one shared operation. -/

namespace Sys2Proof.Machine

/-! ## The sparse tape -/

/-- The word listed for an address, 0 where none is (spec/20_memory.md R39). -/
def Memory.get : Memory → Nat → Int
  | [], _ => 0
  | c :: m, a => if c.1 = a then c.2 else Memory.get m a

/-- Store one word, keeping the canonical form: a 0 is not listed. -/
def Memory.set (m : Memory) (a : Nat) (v : Int) : Memory :=
  m.filter (fun c => decide (c.1 < a)) ++ (if v = 0 then [] else [(a, v)])
    ++ m.filter (fun c => decide (a < c.1))

/-- `for k in lo .. hi: cell[k] <- 0`. -/
def Memory.zeroFill (m : Memory) (lo hi : Nat) : Memory :=
  m.filter (fun c => decide (c.1 < lo) || decide (hi < c.1))

/-- The content of a cell: the word of the tape below `len`, and 0 at and above it (spec/20_memory.md R39). -/
def State.cell (s : State) (a : Nat) : Int :=
  if a < s.len then Memory.get s.tape a else 0

/-! ## Operations that may raise a fault -/

/-- What a sub-operation of a step answers: its value and the state it leaves, or the fault it raises and the
state at the raise. Nothing is rolled back (spec/20_memory.md R56). -/
inductive Res (α : Type) where
  | ok (val : α) (s : State)
  | raise (info : FaultInfo) (s : State)
  deriving DecidableEq, Repr

/-- Statements run in the order written, and a raise ends the instruction (spec/00_scope.md R15). -/
def Res.andThen {α β : Type} (r : Res α) (k : α → State → Res β) : Res β :=
  match r with
  | .ok v s => k v s
  | .raise info s => .raise info s

/-- The kind of a machine fault (spec/60_exceptions.md R106). -/
def FaultInfo.kind : FaultInfo → ErrorKind
  | .outOfBounds _ _ => .outOfBounds
  | .unknownOpcode _ _ _ => .unknownOpcode
  | .invalidMode _ _ => .invalidMode
  | .incompatibleMode _ _ => .incompatibleMode
  | .overflow _ _ => .overflow
  | .inputUnavailable => .inputUnavailable

/-- The numeric codes (spec/60_exceptions.md R106). -/
def ErrorKind.code : ErrorKind → Nat
  | .outOfBounds => 1
  | .unknownOpcode => 2
  | .invalidMode => 3
  | .incompatibleMode => 4
  | .overflow => 5
  | .inputUnavailable => 6
  | .runaway => 16
  | .parseError => 17

/-- The code field of a fault record (spec/60_exceptions.md R109). -/
def FaultRecord.code (r : FaultRecord) : Nat := r.info.kind.code

/-- Fault entry: the record `(info, ip, A)` is written and `run` becomes FAULTED; everything the step has done
stays (spec/60_exceptions.md R109, R112). There is no return from a fault: only LOAD leaves FAULTED (R113,
`loadProgram` in HostCommands.lean). -/
def raiseFault (A : Nat) (info : FaultInfo) (s : State) : State :=
  { s with fault := some { info := info, ipAtFault := s.ip, instrAddr := A }, run := .faulted }

/-- The end of an instruction whose word stands at `A`: its next state, or the state that fault entry leaves. -/
def conclude (A : Nat) (r : Res Unit) : Host.Outcome State Fault Refusal :=
  match r with
  | .ok _ s => .next s
  | .raise info s => .next (raiseFault A info s)

/-- The address of the running instruction's word. An instruction runs right after its opcode fetch, when
`ip = A + 1` (spec/10_state.md R24; DEDUCED: log 11). -/
def instrAddress (s : State) : Nat := s.ip - 1

/-! ## The memory controller -/

/-- The range check on an exact address (spec/20_memory.md R40). -/
abbrev InBounds (s : State) (a : Int) : Prop := 0 ≤ a ∧ a < s.cfg.memLimit

/-- `Grow(a)`: the tape becomes `a + 1` cells long, every new cell 0 (spec/20_memory.md R41). -/
def grow (a : Nat) (s : State) : State :=
  { s with tape := Memory.zeroFill s.tape s.len a, len := a + 1 }

/-- `FetchCell(a)`: a read of the instruction stream; it never grows the tape (spec/20_memory.md R42). -/
def fetchCell (a : Int) (s : State) : Res Int :=
  if InBounds s a then .ok (s.cell a.toNat) s else .raise (.outOfBounds a .fetch) s

/-- `MemRead(a, 1)`: a data read, which grows the tape under EXTEND (spec/20_memory.md R43, R44). -/
def memRead (a : Int) (s : State) : Res Int :=
  if InBounds s a then
    if a.toNat < s.len then .ok (Memory.get s.tape a.toNat) s
    else
      match s.cfg.readGrowth with
      | .extend => .ok 0 (grow a.toNat s)
      | .noExtend => .ok 0 s
  else .raise (.outOfBounds a .read) s

/-- `ResolveWrite(a)`: the check and the allocation of a write target (spec/20_memory.md R45). -/
def resolveWrite (a : Int) (s : State) : Res Nat :=
  if InBounds s a then
    if s.len ≤ a.toNat then .ok a.toNat (grow a.toNat s) else .ok a.toNat s
  else .raise (.outOfBounds a .write) s

/-- `MemWrite(a, 1, v)`: the store; it cannot fault (spec/20_memory.md R46). -/
def memWrite (a : Nat) (v : Int) (s : State) : State :=
  { s with tape := Memory.set s.tape a v }

/-- `FetchRaw()`: the cell at `ip`, and `ip` advanced when the read succeeds (spec/30_encoding.md R62). -/
def fetchRaw (s : State) : Res Int :=
  (fetchCell s.ip s).andThen fun raw s1 => .ok raw { s1 with ip := s1.ip + 1 }

end Sys2Proof.Machine
end

