-- ==== Sys2Proof/Machine/Flags.lean ====
section
/-! DEFINITION. The engine has no flags (spec/10_state.md R28). What other machines do with flags it does with
results: the test whether a result is a word, the law for one that is not (spec/40_alu.md R87), and the 0-or-1
word of a comparison (R90, R91). -/

namespace Sys2Proof.Machine

/-- `fits_W(v)`: `v` is a word (spec/00_scope.md R13). -/
abbrev fitsW (W : Nat) (v : Int) : Prop := -2 ^ (W - 1) ≤ v ∧ v ≤ 2 ^ (W - 1) - 1

/-- `wrap_W(v)`: the word congruent to `v` modulo `2^W` (spec/00_scope.md R13). -/
def wrapW (W : Nat) (v : Int) : Int := (v + 2 ^ (W - 1)) % 2 ^ W - 2 ^ (W - 1)

/-- `Arith(op, r)` for the exact result `r` (spec/40_alu.md R87). -/
def arith (op : Nat) (r : Int) (s : State) : Res Int :=
  if fitsW s.cfg.wordWidth r then .ok r s
  else
    match s.cfg.overflow with
    | .wrap => .ok (wrapW s.cfg.wordWidth r) s
    | .fault => .raise (.overflow op r) s

/-- `(b) ? 1 : 0` (spec/40_alu.md R90, R91). -/
def boolWord (b : Bool) : Int := if b then 1 else 0

end Sys2Proof.Machine
end

