-- ==== Sys2Proof/Machine/Operands.lean ====
section
/-! DEFINITION. The operand resolver (spec/30_encoding.md section 3): every form of a value operand and of a
destination operand (R76). -/

namespace Sys2Proof.Machine

/-- The effective address of modes 0 and 2, an exact integer (R64, R65, R66). -/
def effectiveAddress (m : Mode) (raw rb : Int) : Int :=
  match m with
  | .position => raw
  | .relative => raw + rb
  | .immediate => raw
  | .invalid _ => raw

/-- `FetchValue(k, m)` (R64): the cell is fetched, then the mode is examined. -/
def fetchValue (k : Nat) (m : Mode) (s : State) : Res Int :=
  (fetchRaw s).andThen fun raw s1 =>
    match m with
    | .immediate => .ok raw s1
    | .position => memRead (effectiveAddress .position raw s1.rb) s1
    | .relative => memRead (effectiveAddress .relative raw s1.rb) s1
    | .invalid d => .raise (.invalidMode d k) s1

/-- `FetchAddress(k, m)` (R65): the resolved and allocated write address. -/
def fetchAddress (k : Nat) (m : Mode) (s : State) : Res Nat :=
  (fetchRaw s).andThen fun raw s1 =>
    match m with
    | .position => resolveWrite (effectiveAddress .position raw s1.rb) s1
    | .relative => resolveWrite (effectiveAddress .relative raw s1.rb) s1
    | .immediate => .raise (.incompatibleMode 1 k) s1
    | .invalid d => .raise (.invalidMode d k) s1

end Sys2Proof.Machine
end

