-- ==== Sys2Proof/Machine/Arith.lean ====
section
/-! DEFINITION. ADD, MUL, LT and EQ (spec/40_alu.md). -/

namespace Sys2Proof.Machine

/-- The shape of the family (spec/40_alu.md R92): two value reads, the destination resolved, the result
computed, the store last. -/
def binaryOp (compute : Int → Int → State → Res Int) (m0 m1 m2 : Mode) (s : State) : Res Unit :=
  (fetchValue 0 m0 s).andThen fun a s1 =>
  (fetchValue 1 m1 s1).andThen fun b s2 =>
  (fetchAddress 2 m2 s2).andThen fun d s3 =>
  (compute a b s3).andThen fun r s4 =>
  .ok () (memWrite d r s4)

/-- ADD (R88). -/
def execAdd (m0 m1 m2 : Mode) (s : State) : Host.Outcome State Fault Refusal :=
  conclude (instrAddress s) (binaryOp (fun a b => arith 1 (a + b)) m0 m1 m2 s)

/-- MUL (R89). -/
def execMul (m0 m1 m2 : Mode) (s : State) : Host.Outcome State Fault Refusal :=
  conclude (instrAddress s) (binaryOp (fun a b => arith 2 (a * b)) m0 m1 m2 s)

/-- LT (R90): a signed comparison. -/
def execLt (m0 m1 m2 : Mode) (s : State) : Host.Outcome State Fault Refusal :=
  conclude (instrAddress s) (binaryOp (fun a b s3 => .ok (boolWord (decide (a < b))) s3) m0 m1 m2 s)

/-- EQ (R91). -/
def execEq (m0 m1 m2 : Mode) (s : State) : Host.Outcome State Fault Refusal :=
  conclude (instrAddress s) (binaryOp (fun a b s3 => .ok (boolWord (decide (a = b))) s3) m0 m1 m2 s)

end Sys2Proof.Machine
end

