-- ==== Sys2Proof/Machine/Control.lean ====
section
/-! DEFINITION. JNZ, JZ and HALT (spec/42_control.md). -/

namespace Sys2Proof.Machine

/-- The jump itself (R99, R102): a taken jump to a negative target faults and leaves `ip`; any other target is
written, and its range is checked at the next fetch. -/
def jumpIf (taken : Bool) (t : Int) (s : State) : Res Unit :=
  if taken then
    if t < 0 then .raise (.outOfBounds t .jump) s else .ok () { s with ip := t.toNat }
  else .ok () s

/-- The shape of the jumps: the condition and the target are both fetched and resolved, whether or not the jump
is taken (R99). -/
def conditionalJump (test : Int → Bool) (m0 m1 : Mode) (s : State) : Res Unit :=
  (fetchValue 0 m0 s).andThen fun a s1 =>
  (fetchValue 1 m1 s1).andThen fun t s2 =>
  jumpIf (test a) t s2

/-- JNZ (R99). -/
def execJnz (m0 m1 : Mode) (s : State) : Host.Outcome State Fault Refusal :=
  conclude (instrAddress s) (conditionalJump (fun a => decide (a ≠ 0)) m0 m1 s)

/-- JZ (R100). -/
def execJz (m0 m1 : Mode) (s : State) : Host.Outcome State Fault Refusal :=
  conclude (instrAddress s) (conditionalJump (fun a => decide (a = 0)) m0 m1 s)

/-- HALT (R101). -/
def execHalt (s : State) : Host.Outcome State Fault Refusal :=
  conclude (instrAddress s) (.ok () { s with run := .halted })

end Sys2Proof.Machine
end

