-- ==== Sys2Proof/Machine/Io.lean ====
section
/-! DEFINITION. IN and OUT (spec/41_io.md), with the input interface's request, wait and answer (R94, R95). -/

namespace Sys2Proof.Machine

/-- One request on the input interface, carrying the INTERACTIVE_INPUT flag (R94; log 9). -/
def issueRequest (s : State) : State :=
  { s with requests := s.requests ++ [{ interactive := s.cfg.interactiveInput }] }

/-- The rest of an IN whose word stands at `A` and whose destination is `d`: the oldest answer is taken and
stored (R93), END raises INPUT_UNAVAILABLE and stores nothing (R95), and while there is no answer the request
stays pending and nothing else changes (R94; log 7, log 8). -/
def receiveInput (A d : Nat) (s : State) : Res Unit :=
  match s.input with
  | [] => .ok () { s with pending := some { dest := d, instrAddr := A } }
  | .word v :: rest => .ok () (memWrite d v { s with input := rest, pending := none })
  | .endOfInput :: rest => .raise .inputUnavailable { s with input := rest, pending := none }

/-- IN (R93): the destination is resolved before the request. -/
def execInp (m0 : Mode) (s : State) : Host.Outcome State Fault Refusal :=
  conclude (instrAddress s) ((fetchAddress 0 m0 s).andThen fun d s1 =>
    receiveInput (instrAddress s) d (issueRequest s1))

/-- The unfinished step of a waiting IN, tried again (R94). -/
def resumeInp (p : PendingInput) (s : State) : Host.Outcome State Fault Refusal :=
  conclude p.instrAddr (receiveInput p.instrAddr p.dest s)

/-- `OutputWrite(v)`: one word to the output interface, which the host accepts (R96; log 9). -/
def outputWrite (v : Int) (s : State) : State := { s with output := s.output ++ [v] }

/-- OUT (R96). -/
def execOut (m0 : Mode) (s : State) : Host.Outcome State Fault Refusal :=
  conclude (instrAddress s) ((fetchValue 0 m0 s).andThen fun a s1 => .ok () (outputWrite a s1))

end Sys2Proof.Machine
end

