-- ==== Sys2Proof/Machine/RelBase.lean ====
section
/-! DEFINITION. ARB (spec/43_relbase.md), the one writer of the relative base. -/

namespace Sys2Proof.Machine

/-- ARB (R104): the operand is read with the old `rb`, then `rb + a` is brought under the law of words. -/
def execArb (m0 : Mode) (s : State) : Host.Outcome State Fault Refusal :=
  conclude (instrAddress s) ((fetchValue 0 m0 s).andThen fun a s1 =>
    (arith 9 (s1.rb + a) s1).andThen fun r s2 => .ok () { s2 with rb := r })

end Sys2Proof.Machine
end

