-- ==== Sys2Proof/Machine/Dispatch.lean ====
section
/-! DEFINITION. The dispatcher: one arm for each instruction (spec/30_encoding.md R74, R75). It runs on the state
after the opcode fetch. -/

namespace Sys2Proof.Machine

/-- The meaning of an instruction. -/
def exec (i : Instr) (s : State) : Host.Outcome State Fault Refusal :=
  match i with
  | .add m0 m1 m2 => Sys2Proof.Machine.execAdd m0 m1 m2 s
  | .mul m0 m1 m2 => Sys2Proof.Machine.execMul m0 m1 m2 s
  | .inp m0 => Sys2Proof.Machine.execInp m0 s
  | .out m0 => Sys2Proof.Machine.execOut m0 s
  | .jnz m0 m1 => Sys2Proof.Machine.execJnz m0 m1 s
  | .jz m0 m1 => Sys2Proof.Machine.execJz m0 m1 s
  | .lt m0 m1 m2 => Sys2Proof.Machine.execLt m0 m1 m2 s
  | .eq m0 m1 m2 => Sys2Proof.Machine.execEq m0 m1 m2 s
  | .arb m0 => Sys2Proof.Machine.execArb m0 s
  | .halt => Sys2Proof.Machine.execHalt s

end Sys2Proof.Machine
end

