-- ==== Sys2Proof/WellFormed.lean ====
section
/-! DEFINITION. Which terms of `Instr` are instructions of the encoding: every mode digit is a decimal digit
written in its one form. An illegal mode digit (3 to 9), or an immediate destination, is well formed: the word
decodes to its instruction and faults only when the operand is resolved (spec/30_encoding.md R58, R72, R80). -/

namespace Sys2Proof

/-- `invalid d` stands for the digits 3 to 9 only; the digits 0, 1 and 2 have their own constructors (R63). -/
def Mode.wellFormed : Mode → Bool
  | .position => true
  | .immediate => true
  | .relative => true
  | .invalid d => decide (3 ≤ d) && decide (d ≤ 9)

/-- Every mode digit the instruction has is well formed. -/
def Instr.wellFormed : Instr → Bool
  | .add m0 m1 m2 => m0.wellFormed && m1.wellFormed && m2.wellFormed
  | .mul m0 m1 m2 => m0.wellFormed && m1.wellFormed && m2.wellFormed
  | .inp m0 => m0.wellFormed
  | .out m0 => m0.wellFormed
  | .jnz m0 m1 => m0.wellFormed && m1.wellFormed
  | .jz m0 m1 => m0.wellFormed && m1.wellFormed
  | .lt m0 m1 m2 => m0.wellFormed && m1.wellFormed && m2.wellFormed
  | .eq m0 m1 m2 => m0.wellFormed && m1.wellFormed && m2.wellFormed
  | .arb m0 => m0.wellFormed
  | .halt => true

end Sys2Proof
end

