-- ==== Sys2Proof/Decode.lean ====
section
/-! DEFINITION. The decimal decoder of spec/30_encoding.md (R57 to R61, R71, R74, R80), total on every integer
and rejecting by name; the encoder (R60, R79); and the table's view of an instruction as a number of bits. -/

namespace Sys2Proof

/-! ## Decimal fields (spec/00_scope.md R14) -/

/-- `tdiv(a, b)`: the quotient rounded toward zero (R14; the reading of negative words is decision D8 of the
spec, marked there as general knowledge: PRESUMED, log 12). -/
def tdiv (a b : Int) : Int := Int.tdiv a b

/-- `tmod(a, b) = a - b * tdiv(a, b)`, with the sign of `a` (R14). -/
def tmod (a b : Int) : Int := a - b * tdiv a b

/-- Decimal digit `k` of `v`, counting from 0 at the units digit (R14). -/
def digit (k : Nat) (v : Int) : Int := tmod (tdiv v (10 ^ k)) 10

/-! ## Decoding an instruction word -/

/-- The fields `Decode` gives (R58). -/
structure Fields where
  /-- `tmod(v, 100)`. -/
  opcode : Int
  /-- Digit 2. -/
  m0 : Int
  /-- Digit 3. -/
  m1 : Int
  /-- Digit 4. -/
  m2 : Int
  deriving DecidableEq, Repr

/-- `Decode(v)`: the opcode and the three mode digits, from the word alone (R58). It never faults. -/
def decodeFields (v : Int) : Fields where
  opcode := tmod v 100
  m0 := tmod (tdiv v 100) 10
  m1 := tmod (tdiv v 1000) 10
  m2 := tmod (tdiv v 10000) 10

/-- The mode a digit names (R63). The digit of an operand that is used is never negative (R59, R63). -/
def modeOfDigit (d : Int) : Mode :=
  if d = 0 then .position
  else if d = 1 then .immediate
  else if d = 2 then .relative
  else .invalid d.toNat

/-- Why a word is no instruction. -/
inductive DecodeError where
  /-- `tmod(v, 100)` is not in {1..9, 99} (R71). The decoder raises it; the machine takes the fault
  UNKNOWN_OPCODE for it (safe: nothing runs). -/
  | unknownOpcode (opcode : Int)
  deriving DecidableEq, Repr

/-- The decoder's complete map (R74, R75): one row for each valid opcode, and one for every other value. -/
def decodeWord (v : Int) : Except DecodeError Instr :=
  let f := decodeFields v
  if f.opcode = 1 then .ok (.add (modeOfDigit f.m0) (modeOfDigit f.m1) (modeOfDigit f.m2))
  else if f.opcode = 2 then .ok (.mul (modeOfDigit f.m0) (modeOfDigit f.m1) (modeOfDigit f.m2))
  else if f.opcode = 3 then .ok (.inp (modeOfDigit f.m0))
  else if f.opcode = 4 then .ok (.out (modeOfDigit f.m0))
  else if f.opcode = 5 then .ok (.jnz (modeOfDigit f.m0) (modeOfDigit f.m1))
  else if f.opcode = 6 then .ok (.jz (modeOfDigit f.m0) (modeOfDigit f.m1))
  else if f.opcode = 7 then .ok (.lt (modeOfDigit f.m0) (modeOfDigit f.m1) (modeOfDigit f.m2))
  else if f.opcode = 8 then .ok (.eq (modeOfDigit f.m0) (modeOfDigit f.m1) (modeOfDigit f.m2))
  else if f.opcode = 9 then .ok (.arb (modeOfDigit f.m0))
  else if f.opcode = 99 then .ok .halt
  else .error (.unknownOpcode f.opcode)

/-! ## The static data of the opcodes (R61) -/

/-- The opcode of an instruction (R61, R74). -/
def Instr.opcode : Instr → Nat
  | .add _ _ _ => 1
  | .mul _ _ _ => 2
  | .inp _ => 3
  | .out _ => 4
  | .jnz _ _ => 5
  | .jz _ _ => 6
  | .lt _ _ _ => 7
  | .eq _ _ _ => 8
  | .arb _ => 9
  | .halt => 99

/-- The operands in fetch order, each with its role and its mode (R61). -/
def Instr.operands : Instr → List (Role × Mode)
  | .add m0 m1 m2 => [(.value, m0), (.value, m1), (.dest, m2)]
  | .mul m0 m1 m2 => [(.value, m0), (.value, m1), (.dest, m2)]
  | .inp m0 => [(.dest, m0)]
  | .out m0 => [(.value, m0)]
  | .jnz m0 m1 => [(.value, m0), (.value, m1)]
  | .jz m0 m1 => [(.value, m0), (.value, m1)]
  | .lt m0 m1 m2 => [(.value, m0), (.value, m1), (.dest, m2)]
  | .eq m0 m1 m2 => [(.value, m0), (.value, m1), (.dest, m2)]
  | .arb m0 => [(.value, m0)]
  | .halt => []

/-- The number of operand cells. -/
def Instr.arity (i : Instr) : Nat := i.operands.length

/-- The length in cells: 1 + the number of operands (R61). -/
def Instr.length (i : Instr) : Nat := 1 + i.arity

/-! ## Encoding -/

/-- The decimal digit of a mode (R63). -/
def Mode.digit : Mode → Nat
  | .position => 0
  | .immediate => 1
  | .relative => 2
  | .invalid d => d

/-- The canonical instruction word `opcode + 100*m0 + 1000*m1 + 10000*m2`, with the mode of every operand the
opcode lacks set to 0 (R60, R79). -/
def encode : Instr → Int
  | .add m0 m1 m2 => 1 + 100 * m0.digit + 1000 * m1.digit + 10000 * m2.digit
  | .mul m0 m1 m2 => 2 + 100 * m0.digit + 1000 * m1.digit + 10000 * m2.digit
  | .inp m0 => 3 + 100 * m0.digit
  | .out m0 => 4 + 100 * m0.digit
  | .jnz m0 m1 => 5 + 100 * m0.digit + 1000 * m1.digit
  | .jz m0 m1 => 6 + 100 * m0.digit + 1000 * m1.digit
  | .lt m0 m1 m2 => 7 + 100 * m0.digit + 1000 * m1.digit + 10000 * m2.digit
  | .eq m0 m1 m2 => 8 + 100 * m0.digit + 1000 * m1.digit + 10000 * m2.digit
  | .arb m0 => 9 + 100 * m0.digit
  | .halt => 99

/-- The cells of an instruction: its canonical word, then one raw word for each operand (R79). -/
def assemble (i : Instr) (raws : List Int) : List Int := encode i :: raws

/-! ## The table's numbering of bits

spec/opcode_table.json gives its rows decimal patterns and no bits. A cell's bit image is the W-bit two's
complement of its word (spec/20_memory.md R49), and cell `k` of an instruction takes bits `W*k` to `W*k + W - 1`
(DESIGN CHOICE, safe: log 13). -/

/-- The word whose W-bit two's-complement image is the low W bits of `x` (R13, R49). -/
def wordOfBits (W x : Nat) : Int :=
  if x % 2 ^ W < 2 ^ (W - 1) then ((x % 2 ^ W : Nat) : Int) else ((x % 2 ^ W : Nat) : Int) - 2 ^ W

/-- Cell `k` of the instruction whose low `nbits` bits are those of `w`, every bit above them 0. -/
def tableCell (W nbits w k : Nat) : Int := wordOfBits W (w % 2 ^ nbits / 2 ^ (W * k))

/-- The instruction the decoder reads from an instruction whose bits are `w`, at the default word width. -/
def decodeTableWord (nbits w : Nat) : Option Instr :=
  match decodeWord (tableCell Config.default.wordWidth nbits w 0) with
  | .ok i => some i
  | .error _ => none

end Sys2Proof
end

