-- ==== Sys2Proof/Machine/Fetch.lean ====
section
/-! DEFINITION. The opcode fetch and the decode of a step (spec/30_encoding.md R68), what a step does in the stop
states (spec/60_exceptions.md R113, R118), and the placing of an instruction where the next step fetches it. -/

namespace Sys2Proof.Machine

/-- What the front of a step gives. -/
inductive Fetched where
  /-- An instruction and the state after its opcode fetch, with `ip = A + 1`. -/
  | run (i : Instr) (s : State)
  /-- The step is over: the state fault entry left. -/
  | stop (s : State)
  deriving DecidableEq, Repr

/-- The opcode fetch, the decode and the opcode check (R68, R71). -/
def fetchInstr (s : State) : Fetched :=
  match fetchRaw s with
  | .raise info s1 => .stop (raiseFault s.ip info s1)
  | .ok v s1 =>
    match decodeWord v with
    | .ok i => .run i s1
    | .error (.unknownOpcode op) => .stop (raiseFault s.ip (.unknownOpcode op v s1.ip) s1)

/-- STEP on a halted machine changes nothing (spec/60_exceptions.md R118). -/
def haltedStep (s : State) : Host.Outcome State Fault Refusal := .next s

/-- From FAULTED no step is taken; the stored record is reported (spec/60_exceptions.md R113, R118; log 6). -/
def faultedStep (s : State) : Host.Outcome State Fault Refusal := .fault (.stopped s.fault)

/-- Place one word in a cell of the tape as a load would, growing the tape over it; nothing at or above
MEM_LIMIT. -/
def placeCell (a : Nat) (v : Int) (s : State) : State :=
  if a < s.cfg.memLimit then { s with tape := Memory.set s.tape a v, len := max s.len (a + 1) } else s

/-- The four cells of the longest instruction, placed at `ip` (log 4, log 13). -/
def placeInstr (nbits w : Nat) (s : State) : State :=
  placeCell (s.ip + 3) (tableCell s.cfg.wordWidth nbits w 3)
    (placeCell (s.ip + 2) (tableCell s.cfg.wordWidth nbits w 2)
      (placeCell (s.ip + 1) (tableCell s.cfg.wordWidth nbits w 1)
        (placeCell s.ip (tableCell s.cfg.wordWidth nbits w 0) s)))

end Sys2Proof.Machine
end

