-- ==== Sys2Proof/Machine/Step.lean ====
section
/-! DEFINITION. One step of the engine (spec/30_encoding.md R68) together with what STEP does in the stop states
(spec/60_exceptions.md R118) and while an input request waits (spec/41_io.md R94). -/

namespace Sys2Proof.Machine

/-- One step. In READY with no request pending it fetches, decodes and executes exactly one instruction. -/
def step (s : State) : Host.Outcome State Fault Refusal :=
  match s.run with
  | .halted => haltedStep s
  | .faulted => faultedStep s
  | .ready =>
    match s.pending with
    | some p => resumeInp p s
    | none =>
      match fetchInstr s with
      | .run i s1 => exec i s1
      | .stop s1 => .next s1

/-- `s` with an instruction placed at `ip` and the engine ready to fetch it (log 4). -/
def State.withFetchWord (s : State) (nbits w : Nat) : State :=
  placeInstr nbits w { s with run := .ready, fault := none, pending := none }

end Sys2Proof.Machine
end

