-- ==== Sys2Proof/Machine/HostCommands.lean ====
section
/-! DEFINITION. The host command interface (spec/10_state.md R32): LOAD (spec/70_reset_and_hazards.md R130, R131),
STEP, RUN, GET_IP, GET_HALTED, SNAPSHOT and DUMP (spec/60_exceptions.md R118 to R122, R126, R127), and the answer
to a pending input request (spec/41_io.md R94). -/

namespace Sys2Proof.Machine

/-- A host command (R32). -/
inductive Command where
  | load (program : List Int)
  | step
  | run
  | getIp
  | getHalted
  | snapshot
  | dump (start stop : Int)
  deriving DecidableEq, Repr

/-- What the host gets back. -/
inductive Reply where
  /-- STEP: one instruction executed. RUN: the machine is HALTED. -/
  | ok
  /-- STEP on, or into, HALTED. -/
  | halted
  /-- The stored fault. -/
  | fault (record : Option FaultRecord)
  /-- RUN: RUN_CAP steps taken and still READY (spec/60_exceptions.md R122). -/
  | runaway
  | loaded
  /-- LOAD refused (spec/70_reset_and_hazards.md R131). -/
  | loadRefused
  | ip (value : Nat)
  | isHalted (value : Bool)
  | snapshot (len : Nat) (cells : List Int)
  | dump (cells : List Int)
  /-- The command is unfinished: an IN waits for the host's answer (spec/41_io.md R94). -/
  | waiting
  /-- A command given while another is unfinished, or an answer that no request waits for. -/
  | notAccepted
  deriving DecidableEq, Repr

/-- The cells of a program, from address `a` on, in the tape's canonical form. -/
def tapeOfProgram : Nat → List Int → Memory
  | _, [] => []
  | a, v :: p => if v = 0 then tapeOfProgram (a + 1) p else (a, v) :: tapeOfProgram (a + 1) p

/-- LOAD's precondition: the program fits the tape and holds words (spec/70_reset_and_hazards.md R131). -/
abbrev Loadable (p : List Int) (s : State) : Prop :=
  p.length ≤ s.cfg.memLimit ∧ ∀ v ∈ p, fitsW s.cfg.wordWidth v

/-- LOAD(P), the one reset (spec/70_reset_and_hazards.md R130). The configuration is fixed for the life of the
instance, and the interfaces' far ends are the host's: LOAD writes neither (log 10). -/
def loadProgram (p : List Int) (s : State) : State :=
  { s with tape := tapeOfProgram 0 p, len := p.length, ip := 0, rb := 0, run := .ready, fault := none, iter := 0 }

/-- The state a step leaves; a step from FAULTED leaves the state (spec/60_exceptions.md R118). -/
def engineStep (s : State) : State :=
  match step s with
  | .next t => t
  | .fault _ => s
  | .refused _ => s

/-- STEP's report (spec/60_exceptions.md R118); the command stays in progress while a request is pending. -/
def reportStep (s : State) : State × Reply :=
  if s.pending.isSome then ({ s with command := some .step }, .waiting)
  else
    match s.run with
    | .halted => ({ s with command := none }, .halted)
    | .faulted => ({ s with command := none }, .fault s.fault)
    | .ready => ({ s with command := none }, .ok)

/-- STEP (spec/60_exceptions.md R118). -/
def stepCommand (s : State) : State × Reply := reportStep (engineStep s)

/-- RUN's loop (spec/60_exceptions.md R121) with `n = RUN_CAP - iter` steps left. A step that waits for input is
not counted until it is finished (R123). -/
def runLoop : Nat → State → State × Reply
  | 0, s =>
    match s.run with
    | .halted => ({ s with command := none }, .ok)
    | .faulted => ({ s with command := none }, .fault s.fault)
    | .ready => ({ s with command := none }, .runaway)
  | n + 1, s =>
    match s.run with
    | .halted => ({ s with command := none }, .ok)
    | .faulted => ({ s with command := none }, .fault s.fault)
    | .ready =>
      if (engineStep s).pending.isSome then ({ engineStep s with command := some .run }, .waiting)
      else runLoop n { engineStep s with iter := (engineStep s).iter + 1 }

/-- RUN (spec/60_exceptions.md R121). On a machine that is HALTED or FAULTED it takes no step and sets `iter` to 0: R120
and R121 set it at the start of every RUN, where spec/42_control.md R101 (HALTED) and R113 (FAULTED) say that RUN changes
nothing (DESIGN CHOICE: log 10). -/
def runCommand (s : State) : State × Reply := runLoop s.cfg.runCap { s with iter := 0 }

/-- SNAPSHOT's cells (spec/60_exceptions.md R126). -/
def snapshotCells (s : State) : List Int := (List.range s.len).map s.cell

/-- `min(max(x, 0), len)` (spec/60_exceptions.md R127). -/
def clampToTape (x : Int) (s : State) : Nat := min (max x 0).toNat s.len

/-- DUMP's cells `cell[s .. e-1]`, none when `s >= e` (spec/60_exceptions.md R127). -/
def dumpCells (start stop : Int) (s : State) : List Int :=
  (List.range' (clampToTape start s) (clampToTape stop s - clampToTape start s)).map s.cell

/-- While a request waits, the command in progress is unfinished and the host may not issue another (spec/41_io.md
R94; spec/70_reset_and_hazards.md R140). -/
def State.busy (s : State) : Bool := s.pending.isSome

/-- The kind of error a reply reports (spec/60_exceptions.md R106): RUNAWAY is a verdict of the run controller, and
PARSE_ERROR is the program-text loader's, which is out of scope (R114). -/
def Reply.errorKind : Reply → Option ErrorKind
  | .fault (some r) => some r.info.kind
  | .runaway => some .runaway
  | _ => none

/-- The effect and the reply of a host command (spec/10_state.md R32). The host must not issue one while a request
waits (spec/70_reset_and_hazards.md R140); that it is turned away then is the model's (DESIGN CHOICE: log 10). -/
def issue (c : Command) (s : State) : State × Reply :=
  if s.busy then (s, .notAccepted)
  else
    match c with
    | .load p => if Loadable p s then (loadProgram p s, .loaded) else (s, .loadRefused)
    | .step => stepCommand s
    | .run => runCommand s
    | .getIp => (s, .ip s.ip)
    | .getHalted => (s, .isHalted (decide (s.run = .halted)))
    | .snapshot => (s, .snapshot s.len (snapshotCells s))
    | .dump start stop => (s, .dump (dumpCells start stop s))

/-- The host answers the pending request: the waiting IN finishes, and with it the command in progress (spec/41_io.md
R94; spec/60_exceptions.md R118, R121). In a RUN the finished IN is one step more and the loop goes on. A request that no
command of the host left is reported as for STEP, and an answer that nobody waits for is not accepted (DESIGN CHOICE:
log 10). -/
def answer (x : InputAnswer) (s : State) : State × Reply :=
  match s.pending with
  | none => (s, .notAccepted)
  | some _ =>
    let t := engineStep { s with input := s.input ++ [x] }
    match s.command with
    | some .run => runLoop (t.cfg.runCap - (t.iter + 1)) { t with iter := t.iter + 1 }
    | some .step => reportStep t
    | none => reportStep t

end Sys2Proof.Machine
end

