-- ==== Sys2Proof/Safety.lean ====
section
/-! DEFINITION. What the statements are said in: a safe state and a safe run, the invariant of the engine, the operands
of an instruction read off the state BEFORE any of them is fetched, and what an instruction changes. -/

namespace Sys2Proof.Machine

/-! ## Safe runs -/

/-- A state no machine fault has stopped (spec/10_state.md R26). -/
abbrev Safe (s : State) : Prop := s.run ≠ .faulted

/-- `n` steps run from `s` and every state on the way is safe. -/
def SafeRun : Nat → State → Prop
  | 0, s => Safe s
  | n + 1, s => Safe s ∧ ∃ t, step s = .next t ∧ SafeRun n t

/-! ## The invariant -/

/-- What holds of the engine after LOAD and after every step (spec/10_state.md R20 to R27, R31). -/
structure Inv (s : State) : Prop where
  /-- The parameters meet their constraints (spec/00_scope.md R7, R8). -/
  cfgValid : s.cfg.Valid
  /-- The tape is in canonical form. -/
  tapeWf : Memory.wf s.tape
  /-- Every cell at or above `len` holds 0 (R22). -/
  tapeBelowLen : ∀ c ∈ s.tape, c.1 < s.len
  /-- Every cell holds a word (R21). -/
  tapeWords : ∀ c ∈ s.tape, fitsW s.cfg.wordWidth c.2
  /-- `len <= MEM_LIMIT` (R20). -/
  lenBound : s.len ≤ s.cfg.memLimit
  /-- `ip` never wraps: it stays within `0 .. 2^(W-1)` (R23). -/
  ipBound : s.ip ≤ 2 ^ (s.cfg.wordWidth - 1)
  /-- `rb` is a word (R25). -/
  rbWord : fitsW s.cfg.wordWidth s.rb
  /-- The fault record is there exactly in FAULTED (R26, R27). -/
  faultedIff : s.run = .faulted ↔ s.fault ≠ none
  /-- In FAULTED, `ip` is the record's `ip_at_fault` (spec/60_exceptions.md R119). -/
  faultIp : ∀ r, s.fault = some r → r.ipAtFault = s.ip
  /-- The host answers with words (R33). -/
  inputWords : ∀ v, InputAnswer.word v ∈ s.input → fitsW s.cfg.wordWidth v
  /-- Output words are words (R34). -/
  outputWords : ∀ v ∈ s.output, fitsW s.cfg.wordWidth v
  /-- A step waits for input only in READY, its destination allocated (spec/41_io.md R93, R94). -/
  pendingReady : ∀ p, s.pending = some p → s.run = .ready ∧ p.dest < s.len
  /-- `iter` stays within `0 .. RUN_CAP` (R20). -/
  iterBound : s.iter ≤ s.cfg.runCap
  /-- A RUN command in progress has a step left (spec/60_exceptions.md R121). -/
  runHasStepLeft : s.command = some .run → s.iter < s.cfg.runCap

/-! ## The operands of an instruction, read off one state

These functions take the state right after the opcode fetch, when `ip` points at the first operand cell
(spec/10_state.md R24), and look at it alone. They say what the resolver must come to when it fetches the operands
one after another. -/

/-- The raw value of operand `k` (spec/30_encoding.md R61, R62). -/
def State.raw (s : State) (k : Nat) : Int := s.cell (s.ip + k)

/-- The effective address of operand `k` under mode `m`, by the resolver's own function (R64 to R66). -/
def operandAddress (s : State) (k : Nat) (m : Mode) : Int := effectiveAddress m (s.raw k) s.rb

/-- The value of operand `k` under mode `m` (R64). -/
def operandValue (s : State) (k : Nat) (m : Mode) : Int :=
  match m with
  | .immediate => s.raw k
  | .position => s.cell (operandAddress s k .position).toNat
  | .relative => s.cell (operandAddress s k .relative).toNat
  | .invalid _ => s.raw k

/-- The cell a destination operand `k` names (R65). -/
def operandDest (s : State) (k : Nat) (m : Mode) : Nat := (operandAddress s k m).toNat

/-- The fault of operand `k` once its cell is fetched: its mode check, then its address check (R64, R65, R76;
spec/60_exceptions.md R111). -/
def operandFault (s : State) (k : Nat) : Role → Mode → Option FaultInfo
  | _, .invalid d => some (.invalidMode d k)
  | .value, .immediate => none
  | .dest, .immediate => some (.incompatibleMode 1 k)
  | .value, m =>
    if InBounds s (operandAddress s k m) then none else some (.outOfBounds (operandAddress s k m) .read)
  | .dest, m =>
    if InBounds s (operandAddress s k m) then none else some (.outOfBounds (operandAddress s k m) .write)

/-- The tape length once operand `k` has been resolved without a fault (spec/20_memory.md R43 to R45). -/
def lenAfterOperand (s : State) (k : Nat) (role : Role) (m : Mode) (len : Nat) : Nat :=
  match role, m with
  | .value, .immediate => len
  | .value, _ => if s.cfg.readGrowth = .extend then max len ((operandAddress s k m).toNat + 1) else len
  | .dest, _ => max len ((operandAddress s k m).toNat + 1)

/-- What resolving the operands in fetch order comes to. -/
inductive OperandScan where
  /-- No operand faults; the tape length afterwards. -/
  | clear (len : Nat)
  /-- The first failing check: its fault, `ip` then, and the tape length then. -/
  | stops (info : FaultInfo) (ip len : Nat)
  deriving DecidableEq, Repr

/-- The operands `k`, `k + 1`, ... in fetch order, each with its cell fetch, its mode check and its address check
(spec/60_exceptions.md R111). -/
def scanFrom (s : State) : Nat → Nat → List (Role × Mode) → OperandScan
  | _, len, [] => .clear len
  | k, len, (role, m) :: rest =>
    if s.ip + k < s.cfg.memLimit then
      match operandFault s k role m with
      | some f => .stops f (s.ip + k + 1) len
      | none => scanFrom s (k + 1) (lenAfterOperand s k role m len) rest
    else .stops (.outOfBounds ((s.ip + k : Nat) : Int) .fetch) (s.ip + k) len

/-- The operands of instruction `i` in state `s`. -/
def scanOperands (i : Instr) (s : State) : OperandScan := scanFrom s 0 s.len i.operands

/-! ## What an instruction changes -/

/-- Every cell reads as before. -/
def SameCells (s t : State) : Prop := ∀ a, t.cell a = s.cell a

/-- Cell `d` holds `v` and every other cell reads as before. -/
def StoresAt (s t : State) (d : Nat) (v : Int) : Prop :=
  t.cell d = v ∧ ∀ a, a ≠ d → t.cell a = s.cell a

/-- Fault entry from an instruction that runs in `s`: the record, FAULTED, `ip` and the tape length at the raise,
and nothing else; no cell changes (spec/60_exceptions.md R109, R112; spec/20_memory.md R56). -/
def FaultsWith (s t : State) (info : FaultInfo) (ip len : Nat) : Prop :=
  t = { s with
    tape := t.tape, len := len, ip := ip, run := .faulted,
    fault := some { info := info, ipAtFault := ip, instrAddr := instrAddress s } } ∧ SameCells s t

/-- Two states that READ_GROWTH may tell apart in the tape length alone (spec/20_memory.md R44). -/
def SameButLen (s t : State) : Prop :=
  t = { s with cfg := { s.cfg with readGrowth := t.cfg.readGrowth }, tape := t.tape, len := t.len } ∧ SameCells s t

end Sys2Proof.Machine
end

