-- ==== Sys2Proof/Certificates/Slice0/Obligations.lean ====
section
/-! DEFINITION. The statements for the provers. Each docstring names the rule or section of spec/ it rests on, and the
spec's own decision (D<n> of spec/92_eei_decisions.md) or the model's own choice (log n) where it rests on one.

A meaning runs in the state right after the opcode fetch, when `ip` is one past the instruction word, so an
instruction of `k` operands that completes without a jump leaves `ip + k`. Hypotheses speak of that state alone:
`scanOperands i s` is what resolving the operands in fetch order comes to, `operandValue` and `operandDest` are the
operands themselves (Safety.lean). A state `{ s with ... }` names every field that changes; all others are unchanged. -/

open Sys2Proof Sys2Proof.Machine

/-! ## Encoding -/

/-- 30_encoding section 6 (R79, derived there from R57 and R61): the decoder reads back the canonical word of every
well-formed instruction, every mode digit at every value. -/
def Obligations.DecodeOfEncode : Prop :=
  ∀ i : Instr, i.wellFormed = true → decodeWord (encode i) = .ok i

/-- 30_encoding section 1 (R60, derived there from R57): digits 5 and up of a non-negative word take no part in
decoding. -/
def Obligations.DecodeIgnoresDigitsAboveModes : Prop :=
  ∀ v w : Int, 0 ≤ v → 0 ≤ w → v % 100000 = w % 100000 → decodeWord v = decodeWord w

/-- 30_encoding section 1 (R59; the truncating reading is the spec's decision D8, log 12): a negative word has an
opcode in -99 .. 0, and none is valid. -/
def Obligations.NegativeWordIsNoInstruction : Prop :=
  ∀ v : Int, v < 0 →
    decodeWord v = .error (.unknownOpcode (tmod v 100)) ∧ -99 ≤ tmod v 100 ∧ tmod v 100 ≤ 0

/-- R74, the decoder's complete map: each of the ten opcodes decodes to its instruction, with the mode digits of R57,
and any other value is illegal. -/
def Obligations.OpcodeMapIsComplete : Prop :=
  ∀ v : Int,
    (tmod v 100 = 1 → decodeWord v =
      .ok (.add (modeOfDigit (digit 2 v)) (modeOfDigit (digit 3 v)) (modeOfDigit (digit 4 v)))) ∧
    (tmod v 100 = 2 → decodeWord v =
      .ok (.mul (modeOfDigit (digit 2 v)) (modeOfDigit (digit 3 v)) (modeOfDigit (digit 4 v)))) ∧
    (tmod v 100 = 3 → decodeWord v = .ok (.inp (modeOfDigit (digit 2 v)))) ∧
    (tmod v 100 = 4 → decodeWord v = .ok (.out (modeOfDigit (digit 2 v)))) ∧
    (tmod v 100 = 5 → decodeWord v = .ok (.jnz (modeOfDigit (digit 2 v)) (modeOfDigit (digit 3 v)))) ∧
    (tmod v 100 = 6 → decodeWord v = .ok (.jz (modeOfDigit (digit 2 v)) (modeOfDigit (digit 3 v)))) ∧
    (tmod v 100 = 7 → decodeWord v =
      .ok (.lt (modeOfDigit (digit 2 v)) (modeOfDigit (digit 3 v)) (modeOfDigit (digit 4 v)))) ∧
    (tmod v 100 = 8 → decodeWord v =
      .ok (.eq (modeOfDigit (digit 2 v)) (modeOfDigit (digit 3 v)) (modeOfDigit (digit 4 v)))) ∧
    (tmod v 100 = 9 → decodeWord v = .ok (.arb (modeOfDigit (digit 2 v)))) ∧
    (tmod v 100 = 99 → decodeWord v = .ok .halt) ∧
    (tmod v 100 ∉ [1, 2, 3, 4, 5, 6, 7, 8, 9, 99] → decodeWord v = .error (.unknownOpcode (tmod v 100)))

/-- 30_encoding sections 1 and 5 (R58, R63, R80): whatever word decodes, its instruction is well formed and has the
word's opcode; the mode digits of an instruction are decimal digits. -/
def Obligations.DecodedInstructionIsWellFormed : Prop :=
  ∀ (v : Int) (i : Instr), decodeWord v = .ok i → i.wellFormed = true ∧ (i.opcode : Int) = tmod v 100

/-- Words of every family, written out digit by digit: those of 95_test_vectors section 2.1, and for JNZ the word 1105 of
30_encoding section 7 (R83) and of 95_test_vectors section 2.10. That -1 has the opcode -1 is the spec's decision D8,
from general knowledge (PRESUMED, log 12). -/
def Obligations.DecodingOfListedWords : Prop :=
  decodeWord 1002 = .ok (.mul .position .immediate .position) ∧
  decodeWord 11101 = .ok (.add .immediate .immediate .immediate) ∧
  decodeWord 22207 = .ok (.lt .relative .relative .relative) ∧
  decodeWord 1108 = .ok (.eq .immediate .immediate .position) ∧
  decodeWord 203 = .ok (.inp .relative) ∧
  decodeWord 30104 = .ok (.out .immediate) ∧
  decodeWord 1105 = .ok (.jnz .immediate .immediate) ∧
  decodeWord 1106 = .ok (.jz .immediate .immediate) ∧
  decodeWord 109 = .ok (.arb .immediate) ∧
  decodeWord 20099 = .ok .halt ∧
  decodeWord (-1) = .error (.unknownOpcode (-1)) ∧
  decodeWord 98 = .error (.unknownOpcode 98)

/-! ## The step -/

/-- 30_encoding section 4 (R68): in READY, with no request waiting and `ip` in range, when the word at `ip` decodes to
`i`, the step is `i`'s meaning in the state whose `ip` is one past the word. -/
def Obligations.StepRunsDecodedInstruction : Prop :=
  ∀ (s : State) (i : Instr), s.run = .ready → s.pending = none → s.ip < s.cfg.memLimit →
    decodeWord (s.cell s.ip) = .ok i → step s = exec i { s with ip := s.ip + 1 }

/-- 30_encoding sections 4 and 5 (R68, R71) and 60_exceptions section 2 (R109, R112; the spec's decisions D13, D14,
D22): a word that is no instruction, and an opcode fetch out of range (D3), take their faults, with `ip` one past the
word and at the word. -/
def Obligations.StepTakesFetchAndOpcodeFaults : Prop :=
  ∀ s : State, s.run = .ready → s.pending = none →
    (s.ip < s.cfg.memLimit → ∀ op, decodeWord (s.cell s.ip) = .error (.unknownOpcode op) →
      step s = .next { s with
        ip := s.ip + 1, run := .faulted,
        fault := some { info := .unknownOpcode op (s.cell s.ip) (s.ip + 1), ipAtFault := s.ip + 1, instrAddr := s.ip } }) ∧
    (¬ s.ip < s.cfg.memLimit →
      step s = .next { s with
        run := .faulted,
        fault := some { info := .outOfBounds (s.ip : Int) .fetch, ipAtFault := s.ip, instrAddr := s.ip } })

/-- 60_exceptions sections 2 and 3 (R113, R118; the spec's decisions D13, D16; the outcome of a step from FAULTED is
the model's choice, log 6): from HALTED a step changes nothing, from FAULTED none is taken and the stored record is
reported. -/
def Obligations.StopStatesTakeNoStep : Prop :=
  ∀ s : State, (s.run = .halted → step s = .next s) ∧ (s.run = .faulted → step s = .fault (.stopped s.fault))

/-- No instruction stops the model: every meaning answers a next state, a faulting one the state that fault entry
leaves (60_exceptions section 2). That an IN without an answer answers a next state, in which it waits, is the model's
choice (log 8), where the spec leaves that step unfinished; that an OUT completes in its own step is too (log 9). -/
def Obligations.EveryInstructionAnswersNextState : Prop :=
  ∀ (i : Instr) (s : State), ∃ t, exec i s = .next t

/-! ## Operands and their faults -/

/-- 30_encoding section 3 and 60_exceptions section 2 (R110, R111, R112; the spec's decisions D3, D4, D9, D11, D13,
D14): an instruction, whichever it is, takes the fault of the FIRST failing check of its operands in fetch order: the
record holds that fault, `ip` at the raise and the address of the word, the tape keeps the growth of the operands
before, and no cell and nothing else changes. -/
def Obligations.FirstFailingOperandCheckIsTaken : Prop :=
  ∀ (i : Instr) (s : State) (f : FaultInfo) (ip n : Nat), scanOperands i s = .stops f ip n →
    ∃ t, exec i s = .next t ∧ FaultsWith s t f ip n

/-! ## Each instruction: where it completes, its result, its own fault, and its frame -/

/-- 40_alu section 2 (ADD; the law beyond the word range is the spec's decision D2, D13 and D14 the fault entry):
with its operands clear, ADD stores the exact sum, or its word under WRAP, in the cell its third operand names, and
changes no other cell; under FAULT a sum that is no word raises OVERFLOW and stores nothing. -/
def Obligations.AddStoresSum : Prop :=
  ∀ (m0 m1 m2 : Mode) (s : State) (n : Nat), scanOperands (.add m0 m1 m2) s = .clear n →
    let r : Int := operandValue s 0 m0 + operandValue s 1 m1
    (fitsW s.cfg.wordWidth r → ∃ t, exec (.add m0 m1 m2) s = .next t ∧
      t = { s with tape := t.tape, len := n, ip := s.ip + 3 } ∧ StoresAt s t (operandDest s 2 m2) r) ∧
    (¬ fitsW s.cfg.wordWidth r → s.cfg.overflow = .wrap → ∃ t, exec (.add m0 m1 m2) s = .next t ∧
      t = { s with tape := t.tape, len := n, ip := s.ip + 3 } ∧
      StoresAt s t (operandDest s 2 m2) (wrapW s.cfg.wordWidth r)) ∧
    (¬ fitsW s.cfg.wordWidth r → s.cfg.overflow = .fault → ∃ t, exec (.add m0 m1 m2) s = .next t ∧
      FaultsWith s t (.overflow 1 r) (s.ip + 3) n)

/-- 40_alu section 2 (MUL; D2, D13, D14 as for ADD): the same with the exact product. -/
def Obligations.MulStoresProduct : Prop :=
  ∀ (m0 m1 m2 : Mode) (s : State) (n : Nat), scanOperands (.mul m0 m1 m2) s = .clear n →
    let r : Int := operandValue s 0 m0 * operandValue s 1 m1
    (fitsW s.cfg.wordWidth r → ∃ t, exec (.mul m0 m1 m2) s = .next t ∧
      t = { s with tape := t.tape, len := n, ip := s.ip + 3 } ∧ StoresAt s t (operandDest s 2 m2) r) ∧
    (¬ fitsW s.cfg.wordWidth r → s.cfg.overflow = .wrap → ∃ t, exec (.mul m0 m1 m2) s = .next t ∧
      t = { s with tape := t.tape, len := n, ip := s.ip + 3 } ∧
      StoresAt s t (operandDest s 2 m2) (wrapW s.cfg.wordWidth r)) ∧
    (¬ fitsW s.cfg.wordWidth r → s.cfg.overflow = .fault → ∃ t, exec (.mul m0 m1 m2) s = .next t ∧
      FaultsWith s t (.overflow 2 r) (s.ip + 3) n)

/-- 40_alu section 2 (LT): with its operands clear, LT stores 1 if `a < b` as signed words and 0 otherwise in the cell
its third operand names, and changes no other cell. -/
def Obligations.LtStoresComparison : Prop :=
  ∀ (m0 m1 m2 : Mode) (s : State) (n : Nat), scanOperands (.lt m0 m1 m2) s = .clear n →
    ∃ t, exec (.lt m0 m1 m2) s = .next t ∧ t = { s with tape := t.tape, len := n, ip := s.ip + 3 } ∧
      StoresAt s t (operandDest s 2 m2) (if operandValue s 0 m0 < operandValue s 1 m1 then 1 else 0)

/-- 40_alu section 2 (EQ): the same with `a = b`. -/
def Obligations.EqStoresComparison : Prop :=
  ∀ (m0 m1 m2 : Mode) (s : State) (n : Nat), scanOperands (.eq m0 m1 m2) s = .clear n →
    ∃ t, exec (.eq m0 m1 m2) s = .next t ∧ t = { s with tape := t.tape, len := n, ip := s.ip + 3 } ∧
      StoresAt s t (operandDest s 2 m2) (if operandValue s 0 m0 = operandValue s 1 m1 then 1 else 0)

/-- 41_io (IN; the end of input is the spec's decision D18, the queue of answers and the waiting state are the model's,
log 7 and log 8): with its operand clear, IN issues one request with the INTERACTIVE_INPUT flag; it stores the oldest
answer in the cell its operand names and changes no other cell; with no answer there it waits with its destination
allocated; END raises INPUT_UNAVAILABLE and stores nothing. -/
def Obligations.InStoresAnswerWaitsOrFaults : Prop :=
  ∀ (m0 : Mode) (s : State) (n : Nat), scanOperands (.inp m0) s = .clear n →
    let asked : List InputRequest := s.requests ++ [{ interactive := s.cfg.interactiveInput }]
    (∀ v rest, s.input = .word v :: rest → ∃ t, exec (.inp m0) s = .next t ∧
      t = { s with tape := t.tape, len := n, ip := s.ip + 1, requests := asked, input := rest, pending := none } ∧
      StoresAt s t (operandDest s 0 m0) v) ∧
    (s.input = [] → ∃ t, exec (.inp m0) s = .next t ∧
      t = { s with
        tape := t.tape, len := n, ip := s.ip + 1, requests := asked,
        pending := some { dest := operandDest s 0 m0, instrAddr := instrAddress s } } ∧ SameCells s t) ∧
    (∀ rest, s.input = .endOfInput :: rest → ∃ t, exec (.inp m0) s = .next t ∧
      t = { s with
        tape := t.tape, len := n, ip := s.ip + 1, requests := asked, input := rest, pending := none, run := .faulted,
        fault := some { info := .inputUnavailable, ipAtFault := s.ip + 1, instrAddr := instrAddress s } } ∧
      SameCells s t)

/-- 41_io (R94, R95; log 7, log 8): a step while an IN waits. With no answer it changes nothing; an answer word
finishes the IN, and END raises INPUT_UNAVAILABLE with the IN's own address. -/
def Obligations.WaitingInputStepsToItsAnswer : Prop :=
  ∀ (s : State) (p : PendingInput), s.run = .ready → s.pending = some p → p.dest < s.len →
    (s.input = [] → step s = .next s) ∧
    (∀ v rest, s.input = .word v :: rest → ∃ t, step s = .next t ∧
      t = { s with tape := t.tape, input := rest, pending := none } ∧ StoresAt s t p.dest v) ∧
    (∀ rest, s.input = .endOfInput :: rest →
      step s = .next { s with
        input := rest, pending := none, run := .faulted,
        fault := some { info := .inputUnavailable, ipAtFault := s.ip, instrAddr := p.instrAddr } })

/-- 41_io (OUT): with its operand clear, OUT appends the operand's value to the output and changes no cell. That the host
accepts the word, so that OUT completes, in the step itself is the model's choice (log 9). -/
def Obligations.OutSendsItsValue : Prop :=
  ∀ (m0 : Mode) (s : State) (n : Nat), scanOperands (.out m0) s = .clear n →
    ∃ t, exec (.out m0) s = .next t ∧
      t = { s with tape := t.tape, len := n, ip := s.ip + 1, output := s.output ++ [operandValue s 0 m0] } ∧
      SameCells s t

/-- 42_control (JNZ; the negative target is the spec's decision D12): with its operands clear, JNZ writes `ip` with a
non-negative target when its condition is not 0, faults on a negative target then, and falls through when it is 0,
whatever the target. No cell changes. -/
def Obligations.JnzJumpsOnNonZero : Prop :=
  ∀ (m0 m1 : Mode) (s : State) (n : Nat), scanOperands (.jnz m0 m1) s = .clear n →
    let a := operandValue s 0 m0
    let target := operandValue s 1 m1
    (a ≠ 0 → 0 ≤ target → ∃ t, exec (.jnz m0 m1) s = .next t ∧
      t = { s with tape := t.tape, len := n, ip := target.toNat } ∧ SameCells s t) ∧
    (a = 0 → ∃ t, exec (.jnz m0 m1) s = .next t ∧
      t = { s with tape := t.tape, len := n, ip := s.ip + 2 } ∧ SameCells s t) ∧
    (a ≠ 0 → target < 0 → ∃ t, exec (.jnz m0 m1) s = .next t ∧
      FaultsWith s t (.outOfBounds target .jump) (s.ip + 2) n)

/-- 42_control (JZ; D12): as JNZ with the condition reversed. -/
def Obligations.JzJumpsOnZero : Prop :=
  ∀ (m0 m1 : Mode) (s : State) (n : Nat), scanOperands (.jz m0 m1) s = .clear n →
    let a := operandValue s 0 m0
    let target := operandValue s 1 m1
    (a = 0 → 0 ≤ target → ∃ t, exec (.jz m0 m1) s = .next t ∧
      t = { s with tape := t.tape, len := n, ip := target.toNat } ∧ SameCells s t) ∧
    (a ≠ 0 → ∃ t, exec (.jz m0 m1) s = .next t ∧
      t = { s with tape := t.tape, len := n, ip := s.ip + 2 } ∧ SameCells s t) ∧
    (a = 0 → target < 0 → ∃ t, exec (.jz m0 m1) s = .next t ∧
      FaultsWith s t (.outOfBounds target .jump) (s.ip + 2) n)

/-- 43_relbase (ARB; D2, D13, D14): with its operand clear, ARB adds the operand, read with the old `rb`, to `rb`; the
sum is exact, or its word under WRAP, and under FAULT a sum that is no word raises OVERFLOW and leaves `rb`. No cell
changes. -/
def Obligations.ArbAdjustsRelativeBase : Prop :=
  ∀ (m0 : Mode) (s : State) (n : Nat), scanOperands (.arb m0) s = .clear n →
    let r : Int := s.rb + operandValue s 0 m0
    (fitsW s.cfg.wordWidth r → ∃ t, exec (.arb m0) s = .next t ∧
      t = { s with tape := t.tape, len := n, ip := s.ip + 1, rb := r } ∧ SameCells s t) ∧
    (¬ fitsW s.cfg.wordWidth r → s.cfg.overflow = .wrap → ∃ t, exec (.arb m0) s = .next t ∧
      t = { s with tape := t.tape, len := n, ip := s.ip + 1, rb := wrapW s.cfg.wordWidth r } ∧ SameCells s t) ∧
    (¬ fitsW s.cfg.wordWidth r → s.cfg.overflow = .fault → ∃ t, exec (.arb m0) s = .next t ∧
      FaultsWith s t (.overflow 9 r) (s.ip + 1) n)

/-- 42_control (HALT): HALT sets `run` to HALTED and changes nothing else, whatever the mode digits of its word; after
it STEP changes nothing (D16). That RUN then sets its own counter to 0 is the model's choice between 60_exceptions R121,
which it follows, and 42_control R101, where RUN leaves the state unchanged (log 10). -/
def Obligations.HaltStopsTheEngine : Prop :=
  (∀ s : State, exec .halt s = .next { s with run := .halted }) ∧
  (∀ v : Int, tmod v 100 = 99 → decodeWord v = .ok .halt) ∧
  (∀ s : State, s.run = .halted → s.pending = none → s.command = none →
    issue .step s = (s, .halted) ∧ issue .run s = ({ s with iter := 0 }, .ok))

/-! ## The memory controller -/

/-- R41: Grow zero-fills the cells `len .. a`, makes the tape `a + 1` cells long, and changes no other cell and nothing
else. -/
def Obligations.GrowZeroFills : Prop :=
  ∀ (a : Nat) (s : State), InBounds s (a : Int) → s.len ≤ a →
    (∀ k, s.len ≤ k → k ≤ a → Memory.get (grow a s).tape k = 0) ∧
    (∀ k, k < s.len ∨ a < k → Memory.get (grow a s).tape k = Memory.get s.tape k) ∧
    grow a s = { s with tape := (grow a s).tape, len := a + 1 }

/-- R43: a data read. Out of range it raises OUT_OF_BOUNDS with the exact address and changes nothing; below `len` it
gives the cell; at or above `len` it gives 0, and grows the tape under EXTEND only. -/
def Obligations.DataReadGivesCellAndGrowsUnderExtend : Prop :=
  ∀ (a : Int) (s : State),
    (¬ InBounds s a → memRead a s = .raise (.outOfBounds a .read) s) ∧
    (InBounds s a → a < s.len → memRead a s = .ok (s.cell a.toNat) s) ∧
    (InBounds s a → s.len ≤ a → s.cfg.readGrowth = .extend → memRead a s = .ok 0 (grow a.toNat s)) ∧
    (InBounds s a → s.len ≤ a → s.cfg.readGrowth = .noExtend → memRead a s = .ok 0 s)

/-- 20_memory section 2 (R45; the moment of the growth is the spec's decision D7, the range check D3 and D4): a write
target out of range raises OUT_OF_BOUNDS and changes nothing; one in range comes back allocated, the tape grown over it
and no cell changed. -/
def Obligations.WriteTargetIsCheckedAndAllocated : Prop :=
  ∀ (a : Int) (s : State),
    (¬ InBounds s a → resolveWrite a s = .raise (.outOfBounds a .write) s) ∧
    (InBounds s a → ∃ t, resolveWrite a s = .ok a.toNat t ∧
      t = { s with tape := t.tape, len := max s.len (a.toNat + 1) } ∧ SameCells s t)

/-- R46: a store to a resolved address writes the word in its cell; every other cell and everything else is as
before, and it raises nothing. -/
def Obligations.StoreWritesItsCellOnly : Prop :=
  ∀ (d : Nat) (v : Int) (s : State), d < s.len →
    StoresAt s (memWrite d v s) d v ∧ memWrite d v s = { s with tape := (memWrite d v s).tape }

/-- R62: the operand-cell fetch gives the cell at `ip` and advances `ip` by one when the read succeeds; otherwise it
raises OUT_OF_BOUNDS(FETCH) and leaves `ip`. It never grows the tape. -/
def Obligations.OperandCellFetchAdvancesIp : Prop :=
  ∀ s : State,
    (s.ip < s.cfg.memLimit → fetchRaw s = .ok (s.cell s.ip) { s with ip := s.ip + 1 }) ∧
    (¬ s.ip < s.cfg.memLimit → fetchRaw s = .raise (.outOfBounds (s.ip : Int) .fetch) s)

/-- The model's own form of the tape (log 5) under 20_memory R39: a store, a zero-fill and a load keep it canonical,
and in it equal contents are equal lists. -/
def Obligations.TapeFormIsCanonical : Prop :=
  (∀ (m : Memory) (a : Nat) (v : Int), Memory.wf m → Memory.wf (Memory.set m a v)) ∧
  (∀ (m : Memory) (lo hi : Nat), Memory.wf m → Memory.wf (Memory.zeroFill m lo hi)) ∧
  (∀ (p : List Int) (a : Nat), Memory.wf (tapeOfProgram a p)) ∧
  (∀ m m' : Memory, Memory.wf m → Memory.wf m' → (∀ a, Memory.get m a = Memory.get m' a) → m = m')

/-- 40_alu section 1 (R87; D2): a result that is a word is kept; otherwise WRAP gives THE word congruent to it modulo
`2^W`, and FAULT raises OVERFLOW with the exact result. The state is left as it was. -/
def Obligations.WordArithmeticLaw : Prop :=
  ∀ (op : Nat) (r : Int) (s : State), 1 ≤ s.cfg.wordWidth →
    (fitsW s.cfg.wordWidth r → arith op r s = .ok r s) ∧
    (¬ fitsW s.cfg.wordWidth r → s.cfg.overflow = .fault → arith op r s = .raise (.overflow op r) s) ∧
    (¬ fitsW s.cfg.wordWidth r → s.cfg.overflow = .wrap → ∃ v, arith op r s = .ok v s ∧
      ∀ w : Int, (fitsW s.cfg.wordWidth w ∧ (2 : Int) ^ s.cfg.wordWidth ∣ w - r) ↔ w = v)

/-! ## Whole-machine rules -/

/-- 10_state sections 1 to 8 and 20_memory section 3: the invariant `Inv` (Safety.lean) is kept by every step from
every state that has it. It says that the tape is canonical and holds words, that every cell at or above `len` is 0,
`len <= MEM_LIMIT`, `ip` never wraps, `rb` is a word, FAULTED goes with a record whose `ip_at_fault` is `ip`, and a
waiting IN has its destination allocated. -/
def Obligations.StepKeepsInvariant : Prop :=
  ∀ s t : State, Inv s → step s = .next t → Inv t

/-- The reset state has the invariant (10_state section 8; MEM_LIMIT there is the model's choice, log 3). -/
def Obligations.ResetHasInvariant : Prop := Inv State.reset

/-- 10_state section 7 and 70_reset_and_hazards section 1: every host command, and every answer that is a word or END,
keeps the invariant, a reload and a whole RUN included (RUN as one function, log 10). -/
def Obligations.HostCommandsKeepInvariant : Prop :=
  ∀ s : State, Inv s → (∀ c : Command, Inv (issue c s).1) ∧ Inv (answer .endOfInput s).1 ∧
    ∀ v : Int, fitsW s.cfg.wordWidth v → Inv (answer (.word v) s).1

/-- 20_memory section 2 (R44, D6): READ_GROWTH decides the tape length and nothing else. Two states that differ in it,
and so in their lengths, step to states that differ in no more: every cell, output, register and fault is the same. -/
def Obligations.ReadGrowthShowsInLengthOnly : Prop :=
  ∀ s s' t : State, Inv s → Inv s' → SameButLen s s' → step s = .next t →
    ∃ t', step s' = .next t' ∧ SameButLen t t'

/-- R25: `rb` is 0 after LOAD and stays a word; ARB is its only writer, and the relative mode its only reader: an
instruction other than ARB without a relative operand does the same whatever `rb` holds. A relative address is the exact
sum `raw + rb`, which the range check then rejects when it is out of range. -/
def Obligations.RelativeBaseHasOneWriterAndOneReader : Prop :=
  (∀ (p : List Int) (s : State), (loadProgram p s).rb = 0) ∧
  (∀ (i : Instr) (s t : State), 1 ≤ s.cfg.wordWidth → fitsW s.cfg.wordWidth s.rb → exec i s = .next t →
    fitsW s.cfg.wordWidth t.rb) ∧
  (∀ (i : Instr) (s t : State), exec i s = .next t → t.rb ≠ s.rb → ∃ m, i = .arb m) ∧
  (∀ (i : Instr) (s t : State) (b : Int), (∀ m, i ≠ .arb m) → (∀ role, (role, Mode.relative) ∉ i.operands) →
    exec i s = .next t → exec i { s with rb := b } = .next { t with rb := b }) ∧
  (∀ (k : Nat) (s : State), s.ip < s.cfg.memLimit →
    let a : Int := s.cell s.ip + s.rb
    (InBounds s a → (∃ t, fetchValue k .relative s = .ok (s.cell a.toNat) t) ∧
      ∃ t, fetchAddress k .relative s = .ok a.toNat t) ∧
    (¬ InBounds s a → fetchValue k .relative s = .raise (.outOfBounds a .read) { s with ip := s.ip + 1 } ∧
      fetchAddress k .relative s = .raise (.outOfBounds a .write) { s with ip := s.ip + 1 }))

/-- R38: only IN and OUT reach the input source and the output sink. -/
def Obligations.OnlyInAndOutReachTheStreams : Prop :=
  ∀ (i : Instr) (s t : State), exec i s = .next t →
    (t.output ≠ s.output → ∃ m, i = .out m) ∧
    (t.input ≠ s.input ∨ t.requests ≠ s.requests ∨ t.pending ≠ s.pending → ∃ m, i = .inp m)

/-- 10_state section 5 (R26; the spec's decision D13): of the instructions run in READY, HALT alone sets HALTED, and
one sets FAULTED exactly when it writes a fault record. -/
def Obligations.OnlyHaltHalts : Prop :=
  ∀ (i : Instr) (s t : State), s.run = .ready → s.fault = none → exec i s = .next t →
    (t.run = .halted ↔ i = .halt) ∧ (t.run = .faulted ↔ t.fault ≠ none)

/-- R56: a faulting instruction rolls nothing back and commits nothing: every `ip` advance and all tape growth up to the
raise remain, and no cell, no output, no `rb` and no jump is written. -/
def Obligations.FaultingInstructionCommitsNothing : Prop :=
  ∀ (i : Instr) (s t : State), s.run = .ready → exec i s = .next t → t.run = .faulted →
    SameCells s t ∧ t.rb = s.rb ∧ t.output = s.output ∧
    (∀ f ip n, scanOperands i s = .stops f ip n → t.ip = ip ∧ t.len = n) ∧
    ∀ n, scanOperands i s = .clear n → t.ip = s.ip + i.arity ∧ t.len = n

/-- 30_encoding section 4 (R69) and 42_control (R103): an instruction that does not fault and is no taken jump leaves
`ip` past its operand cells; JNZ and JZ are the only other writers of `ip`. -/
def Obligations.IpAdvancesPastTheInstruction : Prop :=
  ∀ (i : Instr) (s t : State), s.run = .ready → exec i s = .next t → t.run ≠ .faulted →
    t.ip = s.ip + i.arity ∨ (∃ m0 m1, i = .jnz m0 m1) ∨ (∃ m0 m1, i = .jz m0 m1)

/-- 20_memory section 2 and 30_encoding section 3 (R45, R46, R61, R65): the only cell an instruction can change, on
any path, is the one its destination operand names. -/
def Obligations.OnlyTheDestinationCellChanges : Prop :=
  ∀ (i : Instr) (s t : State) (a : Nat), exec i s = .next t → t.cell a ≠ s.cell a →
    ∃ k m, i.operands[k]? = some (.dest, m) ∧ a = operandDest s k m

/-- 10_state section 6 (R30) and 60_exceptions section 3 (R118): no step changes the configuration, the run
controller's counter or the host command in progress (log 10), and neither of the last two has a part in what a step
does. -/
def Obligations.StepIgnoresRunController : Prop :=
  ∀ s t : State, step s = .next t →
    t.cfg = s.cfg ∧ t.iter = s.iter ∧ t.command = s.command ∧
    ∀ n c, step { s with iter := n, command := c } = .next { t with iter := n, command := c }

/-- R48: no step, no host command and no answer makes the tape shorter (LOAD is the reset and starts a new one, R36),
and SNAPSHOT and DUMP change neither its length nor any cell. -/
def Obligations.NothingShrinksTheTape : Prop :=
  (∀ s t : State, step s = .next t → s.len ≤ t.len) ∧
  (∀ (c : Command) (s : State), (∀ p, c ≠ .load p) → s.len ≤ (issue c s).1.len) ∧
  (∀ (x : InputAnswer) (s : State), s.len ≤ (answer x s).1.len) ∧
  (∀ s : State, (issue .snapshot s).1 = s) ∧
  (∀ (s : State) (a b : Int), (issue (.dump a b) s).1 = s)

/-! ## The host command interface -/

/-- 10_state section 8 (R36): after LOAD(P) every element of the engine's state has its reset value. That the
configuration, the streams, the request list and the command in progress stay over LOAD is the model's choice (log 10). -/
def Obligations.LoadResetsTheEngine : Prop :=
  ∀ (p : List Int) (s : State), s.pending = none → Loadable p s →
    ∃ t, issue (.load p) s = (t, .loaded) ∧ (∀ a, t.cell a = p.getD a 0) ∧
      t = { s with
        tape := t.tape, len := p.length, ip := 0, rb := 0, run := .ready, fault := none, iter := 0 }

/-- 70_reset_and_hazards section 1 (R131; the spec's decisions D1, D3): a program longer than MEM_LIMIT, or with a
value that is no word, is refused and the state does not change. -/
def Obligations.UnloadableProgramIsRefused : Prop :=
  ∀ (p : List Int) (s : State), s.pending = none →
    (s.cfg.memLimit < p.length ∨ ∃ v ∈ p, ¬ fitsW s.cfg.wordWidth v) → issue (.load p) s = (s, .loadRefused)

/-- 60_exceptions section 4 (R121, R122, R123; the spec's decision D17): RUN takes the steps of the engine from
`iter = 0`, all but the last from READY with no request waiting, until HALTED (OK), FAULTED (the stored record), RUN_CAP
steps taken and still READY (RUNAWAY), or an IN that waits, whose unfinished step is not counted. It changes nothing but
what those steps change and its own counter. The waiting disjunct is the model's (log 8); RUN as one function, `command`,
and `iter = 0` from HALTED and from FAULTED are its choice too (log 10). -/
def Obligations.RunStepsUntilStopOrCap : Prop :=
  ∀ s : State, s.pending = none →
    ∃ k, k ≤ s.cfg.runCap ∧
      (∀ j, j < k → (engineStep^[j] s).run = .ready ∧ (engineStep^[j] s).pending = none) ∧
      (((engineStep^[k] s).run = .halted ∧
          issue .run s = ({ engineStep^[k] s with iter := k, command := none }, .ok)) ∨
        ((engineStep^[k] s).run = .faulted ∧
          issue .run s = ({ engineStep^[k] s with iter := k, command := none }, .fault (engineStep^[k] s).fault)) ∨
        (k = s.cfg.runCap ∧ (engineStep^[k] s).run = .ready ∧ (engineStep^[k] s).pending = none ∧
          issue .run s = ({ engineStep^[k] s with iter := k, command := none }, .runaway)) ∨
        (1 ≤ k ∧ (engineStep^[k] s).pending ≠ none ∧
          issue .run s = ({ engineStep^[k] s with iter := k - 1, command := some .run }, .waiting)))

/-- 60_exceptions section 3 (R118; D16): STEP takes one step of the engine from READY and reports OK, HALTED or the
fault; it leaves `iter`. A step that waits for input leaves the command unfinished (log 8, log 10). -/
def Obligations.StepCommandReports : Prop :=
  ∀ s : State, s.pending = none →
    (engineStep s).iter = s.iter ∧
    ((engineStep s).pending ≠ none → issue .step s = ({ engineStep s with command := some .step }, .waiting)) ∧
    ((engineStep s).pending = none →
      ((engineStep s).run = .ready → issue .step s = ({ engineStep s with command := none }, .ok)) ∧
      ((engineStep s).run = .halted → issue .step s = ({ engineStep s with command := none }, .halted)) ∧
      ((engineStep s).run = .faulted →
        issue .step s = ({ engineStep s with command := none }, .fault (engineStep s).fault)))

/-- R119: GET_IP returns `ip` and GET_HALTED whether `run` is HALTED, and neither changes state. After a HALT at `A`
GET_IP returns `A + 1`, and after a fault it returns `ip_at_fault`. -/
def Obligations.QueriesReturnIpAndHalted : Prop :=
  (∀ s : State, s.pending = none →
    issue .getIp s = (s, .ip s.ip) ∧ issue .getHalted s = (s, .isHalted (decide (s.run = .halted)))) ∧
  (∀ s : State, s.run = .ready → s.pending = none → s.ip < s.cfg.memLimit → decodeWord (s.cell s.ip) = .ok .halt →
    ∃ t, step s = .next t ∧ issue .getIp t = (t, .ip (s.ip + 1)) ∧ issue .getHalted t = (t, .isHalted true)) ∧
  (∀ (s : State) (r : FaultRecord), Inv s → s.fault = some r → issue .getIp s = (s, .ip r.ipAtFault))

/-- R126: SNAPSHOT returns `len` and the cells `0 .. len - 1` in order, and changes no state. -/
def Obligations.SnapshotReturnsTheTape : Prop :=
  ∀ s : State, s.pending = none →
    ∃ cells : List Int, issue .snapshot s = (s, .snapshot s.len cells) ∧ cells.length = s.len ∧
      ∀ a, a < s.len → cells[a]? = some (s.cell a)

/-- 60_exceptions section 5 (R127; the exclusive end and the clamping of negative bounds are the spec's decision D23):
DUMP returns the cells `s .. e - 1` of the clamped range, none when it is empty, and changes no state. -/
def Obligations.DumpReturnsTheClampedRange : Prop :=
  ∀ (s : State) (a b : Int), s.pending = none →
    ∃ cells : List Int, issue (.dump a b) s = (s, .dump cells) ∧
      (cells.length : Int) = max 0 (min (max b 0) s.len - min (max a 0) s.len) ∧
      ∀ k, k < cells.length → cells[k]? = some (s.cell ((min (max a 0) s.len).toNat + k))

/-- 41_io (R94) and 70_reset_and_hazards section 5 (R140): while a request waits the host may issue no command, and its
answer finishes the IN of a STEP and reports it (of a RUN: `AnswerContinuesRun`). The waiting state is the model's
(log 8); that a command is turned away then, that an answer nobody waits for is, and that a request no command left is
reported as for STEP, are its choices (log 10). -/
def Obligations.WaitingHostMayOnlyAnswer : Prop :=
  (∀ (c : Command) (s : State), s.pending ≠ none → issue c s = (s, .notAccepted)) ∧
  (∀ (x : InputAnswer) (s : State), s.pending = none → answer x s = (s, .notAccepted)) ∧
  (∀ (v : Int) (s : State) (p : PendingInput), s.run = .ready → s.pending = some p → p.dest < s.len →
    s.input = [] → s.command ≠ some .run →
    ∃ t, answer (.word v) s = (t, .ok) ∧ t = { s with tape := t.tape, pending := none, command := none } ∧
      StoresAt s t p.dest v) ∧
  (∀ (s : State) (p : PendingInput), s.run = .ready → s.pending = some p → s.input = [] →
    s.command ≠ some .run →
    ∃ t r, answer .endOfInput s = (t, .fault (some r)) ∧
      r = { info := .inputUnavailable, ipAtFault := s.ip, instrAddr := p.instrAddr } ∧
      t = { s with pending := none, command := none, run := .faulted, fault := some r })

/-- 60_exceptions section 4 (R121, R123; D17) and 41_io (R94): the answer to the waiting IN of a RUN finishes that step,
with the effect a step on the answer has (`WaitingInputStepsToItsAnswer`), counts it, and the RUN takes the engine's steps
from there: all but the last from READY with no request waiting, until HALTED (OK), FAULTED (the stored record, after END
at once), RUN_CAP steps in all and still READY (RUNAWAY), or the next IN that waits, whose step is not counted. The
waiting state is the model's (log 8), RUN as one function and `command` too (log 10). -/
def Obligations.AnswerContinuesRun : Prop :=
  ∀ (x : InputAnswer) (s : State) (p : PendingInput), s.run = .ready → s.pending = some p → s.input = [] →
    s.command = some .run → s.iter < s.cfg.runCap →
    ∃ u, step { s with input := [x] } = .next u ∧ u.pending = none ∧ u.iter = s.iter ∧
      (x = .endOfInput → u.run = .faulted) ∧ ((∃ v, x = .word v) → u.run = .ready) ∧
      ∃ k, s.iter + 1 + k ≤ s.cfg.runCap ∧
        (∀ j, j < k → (engineStep^[j] u).run = .ready ∧ (engineStep^[j] u).pending = none) ∧
        (((engineStep^[k] u).run = .halted ∧
            answer x s = ({ engineStep^[k] u with iter := s.iter + 1 + k, command := none }, .ok)) ∨
          ((engineStep^[k] u).run = .faulted ∧
            answer x s =
              ({ engineStep^[k] u with iter := s.iter + 1 + k, command := none }, .fault (engineStep^[k] u).fault)) ∨
          (s.iter + 1 + k = s.cfg.runCap ∧ (engineStep^[k] u).run = .ready ∧ (engineStep^[k] u).pending = none ∧
            answer x s = ({ engineStep^[k] u with iter := s.iter + 1 + k, command := none }, .runaway)) ∨
          (1 ≤ k ∧ (engineStep^[k] u).pending ≠ none ∧
            answer x s = ({ engineStep^[k] u with iter := s.iter + k, command := some .run }, .waiting)))

/-- 60_exceptions section 1 (R106, R109; the codes are the spec's decision D15): the kind and the code of the record of
each machine fault, 1 to 6 in R106's order, and the kinds and codes 16 and 17 of the two outcomes of host commands. A
reply that reports a fault has the record's kind, RUNAWAY has its own, and no other reply reports an error. -/
def Obligations.FaultKindsAndCodes : Prop :=
  (∀ r : FaultRecord,
    (∀ a x, r.info = .outOfBounds a x → r.info.kind = .outOfBounds ∧ r.code = 1) ∧
    (∀ op w ip, r.info = .unknownOpcode op w ip → r.info.kind = .unknownOpcode ∧ r.code = 2) ∧
    (∀ m k, r.info = .invalidMode m k → r.info.kind = .invalidMode ∧ r.code = 3) ∧
    (∀ m k, r.info = .incompatibleMode m k → r.info.kind = .incompatibleMode ∧ r.code = 4) ∧
    (∀ op v, r.info = .overflow op v → r.info.kind = .overflow ∧ r.code = 5) ∧
    (r.info = .inputUnavailable → r.info.kind = .inputUnavailable ∧ r.code = 6)) ∧
  ErrorKind.runaway.code = 16 ∧ ErrorKind.parseError.code = 17 ∧
  (∀ r : FaultRecord, (Reply.fault (some r)).errorKind = some r.info.kind) ∧
  Reply.runaway.errorKind = some .runaway ∧
  (∀ y : Reply, y ≠ .runaway → (∀ r, y ≠ .fault (some r)) → y.errorKind = none)
end

