-- ==== Sys2Proof/Laws/Memory.lean ====
section
/-! SUPPORT. The laws of the sparse tape: what a read gives after a store, a zero-fill and a load, and that every
operation keeps the canonical form. -/

namespace Sys2Proof.Machine

@[simp] theorem Memory.get_nil (a : Nat) : Memory.get [] a = 0 := rfl

theorem Memory.get_cons (c : Nat × Int) (m : Memory) (a : Nat) :
    Memory.get (c :: m) a = if c.1 = a then c.2 else Memory.get m a := rfl

/-- A filter that looks at addresses alone keeps a read or empties it. -/
theorem Memory.get_filter (p : Nat → Bool) (m : Memory) (a : Nat) :
    Memory.get (m.filter fun c => p c.1) a = if p a then Memory.get m a else 0 := by
  induction m with
  | nil => simp
  | cons c m ih =>
    by_cases hc : c.1 = a
    · subst hc
      cases hp : p c.1 <;> simp [Memory.get_cons, hp, ih]
    · cases hp : p c.1 <;> simp [Memory.get_cons, hp, ih, hc]

/-- In two lists laid end to end, an address the first does not list is read in the second. -/
theorem Memory.get_append (m m' : Memory) (a : Nat) :
    Memory.get (m ++ m') a = if a ∈ m.map Prod.fst then Memory.get m a else Memory.get m' a := by
  induction m with
  | nil => simp
  | cons c m ih =>
    by_cases hc : c.1 = a
    · simp [Memory.get_cons, hc]
    · have hc' : ¬ a = c.1 := fun h => hc h.symm
      simp only [List.cons_append, Memory.get_cons, hc, if_false, ih, List.map_cons, List.mem_cons, hc', false_or]

/-- An address that is not listed reads as 0. -/
theorem Memory.get_of_not_mem (m : Memory) (a : Nat) (h : a ∉ m.map Prod.fst) : Memory.get m a = 0 := by
  induction m with
  | nil => rfl
  | cons c m ih =>
    simp only [List.map_cons, List.mem_cons, not_or] at h
    simp [Memory.get_cons, Ne.symm h.1, ih h.2]

/-- Read after a store: the stored word at its address, every other address as before. -/
theorem Memory.get_set (m : Memory) (a b : Nat) (v : Int) :
    Memory.get (Memory.set m a v) b = if b = a then v else Memory.get m b := by
  have hlow : Memory.get (m.filter fun c => decide (c.1 < a)) b = if b < a then Memory.get m b else 0 := by
    simpa using Memory.get_filter (fun x => decide (x < a)) m b
  have hhigh : Memory.get (m.filter fun c => decide (a < c.1)) b = if a < b then Memory.get m b else 0 := by
    simpa using Memory.get_filter (fun x => decide (a < x)) m b
  have hmem : b ∈ (m.filter fun c => decide (c.1 < a)).map Prod.fst → b < a := by
    simp only [List.mem_map, List.mem_filter, decide_eq_true_eq]
    rintro ⟨c, ⟨-, hc⟩, rfl⟩
    exact hc
  have hnot : b < a → b ∉ (m.filter fun c => decide (c.1 < a)).map Prod.fst → Memory.get m b = 0 := by
    intro hb hn
    have := Memory.get_of_not_mem _ _ hn
    rwa [hlow, if_pos hb] at this
  unfold Memory.set
  rw [List.append_assoc, Memory.get_append, hlow, Memory.get_append, hhigh]
  split <;> rename_i h1
  · have := hmem h1
    simp [this, Nat.ne_of_lt this]
  · rcases Nat.lt_trichotomy b a with hb | hb | hb
    · have h0 := hnot hb h1
      have : ¬ b = a := by omega
      have h3 : ¬ a < b := by omega
      by_cases hv : v = 0 <;> simp [hv, this, h3, h0]
    · subst hb
      by_cases hv : v = 0 <;> simp [hv, Memory.get_cons]
    · have : ¬ b = a := by omega
      by_cases hv : v = 0 <;> simp [hv, this, hb]

/-- Read after a zero-fill of `lo .. hi`. -/
theorem Memory.get_zeroFill (m : Memory) (lo hi a : Nat) :
    Memory.get (Memory.zeroFill m lo hi) a = if lo ≤ a ∧ a ≤ hi then 0 else Memory.get m a := by
  have h := Memory.get_filter (fun x => decide (x < lo) || decide (hi < x)) m a
  unfold Memory.zeroFill
  rw [h]
  by_cases h1 : a < lo
  · have : ¬ (lo ≤ a ∧ a ≤ hi) := by omega
    simp [h1]
  · by_cases h2 : hi < a
    · have : ¬ (lo ≤ a ∧ a ≤ hi) := by omega
      simp [h2]
    · have : lo ≤ a ∧ a ≤ hi := by omega
      simp [this.1, this.2, Nat.not_lt.mpr]

/-- A listed cell is what a read of its address gives, in the canonical form. -/
theorem Memory.get_of_mem {m : Memory} (h : Memory.wf m) {c : Nat × Int} (hc : c ∈ m) :
    Memory.get m c.1 = c.2 := by
  obtain ⟨hp, -⟩ := h
  induction m with
  | nil => cases hc
  | cons d m ih =>
    rw [List.pairwise_cons] at hp
    rcases List.mem_cons.mp hc with rfl | hc'
    · simp [Memory.get_cons]
    · have := hp.1 c hc'
      simp [Memory.get_cons, Nat.ne_of_lt this, ih hc' hp.2]

/-- What is listed after a store. -/
theorem Memory.mem_set {m : Memory} {a : Nat} {v : Int} {c : Nat × Int} (h : c ∈ Memory.set m a v) :
    c ∈ m ∨ c = (a, v) := by
  unfold Memory.set at h
  by_cases hv : v = 0
  · simp [hv] at h
    tauto
  · simp [hv] at h
    tauto

/-- A store keeps the canonical form. -/
theorem Memory.wf_set {m : Memory} (h : Memory.wf m) (a : Nat) (v : Int) : Memory.wf (Memory.set m a v) := by
  obtain ⟨hp, hz⟩ := h
  refine ⟨?_, ?_⟩
  · unfold Memory.set
    rw [List.append_assoc, List.pairwise_append]
    refine ⟨hp.filter _, ?_, ?_⟩
    · rw [List.pairwise_append]
      refine ⟨by split <;> simp, hp.filter _, ?_⟩
      intro x hx y hy
      have hy' : a < y.1 := by simpa using (List.mem_filter.mp hy).2
      by_cases hv : v = 0 <;> simp [hv] at hx
      subst hx
      exact hy'
    · intro x hx y hy
      have hx' : x.1 < a := by simpa using (List.mem_filter.mp hx).2
      rcases List.mem_append.mp hy with hy | hy
      · by_cases hv : v = 0 <;> simp [hv] at hy
        subst hy
        exact hx'
      · have hy' : a < y.1 := by simpa using (List.mem_filter.mp hy).2
        omega
  · intro c hc
    unfold Memory.set at hc
    by_cases hv : v = 0
    · simp only [hv, if_true, List.append_nil, List.mem_append, List.mem_filter] at hc
      rcases hc with hc | hc <;> exact hz c hc.1
    · simp only [hv, if_false, List.mem_append, List.mem_filter, List.mem_singleton] at hc
      rcases hc with (hc | rfl) | hc
      · exact hz c hc.1
      · exact hv
      · exact hz c hc.1

/-- A zero-fill keeps the canonical form. -/
theorem Memory.wf_zeroFill {m : Memory} (h : Memory.wf m) (lo hi : Nat) : Memory.wf (Memory.zeroFill m lo hi) :=
  ⟨h.1.filter _, fun c hc => h.2 c (List.mem_filter.mp hc).1⟩

/-- A zero-fill lists nothing new. -/
theorem Memory.mem_zeroFill {m : Memory} {lo hi : Nat} {c : Nat × Int} (h : c ∈ Memory.zeroFill m lo hi) : c ∈ m :=
  (List.mem_filter.mp h).1

/-- Every cell a loaded program lists lies in its range and holds a word of the program. -/
theorem tapeOfProgram_mem {p : List Int} {a : Nat} {c : Nat × Int} (h : c ∈ tapeOfProgram a p) :
    a ≤ c.1 ∧ c.1 < a + p.length ∧ c.2 ∈ p ∧ c.2 ≠ 0 := by
  induction p generalizing a with
  | nil => cases h
  | cons v p ih =>
    unfold tapeOfProgram at h
    by_cases hv : v = 0
    · simp only [hv, if_true] at h
      obtain ⟨h1, h2, h3, h4⟩ := ih h
      simp only [List.length_cons, List.mem_cons]
      exact ⟨by omega, by omega, Or.inr h3, h4⟩
    · simp only [hv, if_false, List.mem_cons] at h
      simp only [List.length_cons, List.mem_cons]
      rcases h with rfl | h
      · exact ⟨Nat.le_refl _, by omega, Or.inl rfl, hv⟩
      · obtain ⟨h1, h2, h3, h4⟩ := ih h
        exact ⟨by omega, by omega, Or.inr h3, h4⟩

/-- A loaded program is in canonical form. -/
theorem tapeOfProgram_wf (p : List Int) (a : Nat) : Memory.wf (tapeOfProgram a p) := by
  refine ⟨?_, fun c hc => (tapeOfProgram_mem hc).2.2.2⟩
  induction p generalizing a with
  | nil => exact List.Pairwise.nil
  | cons v p ih =>
    unfold tapeOfProgram
    split
    · exact ih _
    · refine List.pairwise_cons.mpr ⟨fun c hc => ?_, ih _⟩
      have := (tapeOfProgram_mem hc).1
      show a < c.1
      omega

/-- A loaded program reads as its words, and as 0 past its end. -/
theorem get_tapeOfProgram (p : List Int) (a b : Nat) :
    Memory.get (tapeOfProgram a p) (a + b) = p.getD b 0 := by
  induction p generalizing a b with
  | nil => simp [tapeOfProgram]
  | cons v p ih =>
    have hlow : Memory.get (tapeOfProgram (a + 1) p) a = 0 := by
      apply Memory.get_of_not_mem
      intro hmem
      obtain ⟨c, hc, h⟩ := List.mem_map.mp hmem
      have := (tapeOfProgram_mem hc).1
      omega
    unfold tapeOfProgram
    cases b with
    | zero =>
      by_cases hv : v = 0
      · simp [hv, hlow]
      · simp [hv, Memory.get_cons]
    | succ b =>
      have hb := ih (a + 1) b
      have he : a + 1 + b = a + (b + 1) := by omega
      rw [he] at hb
      by_cases hv : v = 0
      · simp [hv, hb]
      · simp [hv, Memory.get_cons, hb]

end Sys2Proof.Machine
end

