-- ==== Sys2Proof/Laws/State.lean ====
section
/-! SUPPORT. One lemma for each field of State under each named update, true by rfl, so that no proof unfolds a
record update. -/

namespace Sys2Proof.Machine

/-! ## Grow -/

@[simp] theorem grow_cfg (a : Nat) (s : State) : (grow a s).cfg = s.cfg := rfl
@[simp] theorem grow_tape (a : Nat) (s : State) : (grow a s).tape = Memory.zeroFill s.tape s.len a := rfl
@[simp] theorem grow_len (a : Nat) (s : State) : (grow a s).len = a + 1 := rfl
@[simp] theorem grow_ip (a : Nat) (s : State) : (grow a s).ip = s.ip := rfl
@[simp] theorem grow_rb (a : Nat) (s : State) : (grow a s).rb = s.rb := rfl
@[simp] theorem grow_run (a : Nat) (s : State) : (grow a s).run = s.run := rfl
@[simp] theorem grow_fault (a : Nat) (s : State) : (grow a s).fault = s.fault := rfl
@[simp] theorem grow_iter (a : Nat) (s : State) : (grow a s).iter = s.iter := rfl
@[simp] theorem grow_input (a : Nat) (s : State) : (grow a s).input = s.input := rfl
@[simp] theorem grow_requests (a : Nat) (s : State) : (grow a s).requests = s.requests := rfl
@[simp] theorem grow_output (a : Nat) (s : State) : (grow a s).output = s.output := rfl
@[simp] theorem grow_pending (a : Nat) (s : State) : (grow a s).pending = s.pending := rfl
@[simp] theorem grow_command (a : Nat) (s : State) : (grow a s).command = s.command := rfl

/-! ## MemWrite -/

@[simp] theorem memWrite_cfg (a : Nat) (v : Int) (s : State) : (memWrite a v s).cfg = s.cfg := rfl
@[simp] theorem memWrite_tape (a : Nat) (v : Int) (s : State) : (memWrite a v s).tape = Memory.set s.tape a v := rfl
@[simp] theorem memWrite_len (a : Nat) (v : Int) (s : State) : (memWrite a v s).len = s.len := rfl
@[simp] theorem memWrite_ip (a : Nat) (v : Int) (s : State) : (memWrite a v s).ip = s.ip := rfl
@[simp] theorem memWrite_rb (a : Nat) (v : Int) (s : State) : (memWrite a v s).rb = s.rb := rfl
@[simp] theorem memWrite_run (a : Nat) (v : Int) (s : State) : (memWrite a v s).run = s.run := rfl
@[simp] theorem memWrite_fault (a : Nat) (v : Int) (s : State) : (memWrite a v s).fault = s.fault := rfl
@[simp] theorem memWrite_iter (a : Nat) (v : Int) (s : State) : (memWrite a v s).iter = s.iter := rfl
@[simp] theorem memWrite_input (a : Nat) (v : Int) (s : State) : (memWrite a v s).input = s.input := rfl
@[simp] theorem memWrite_requests (a : Nat) (v : Int) (s : State) : (memWrite a v s).requests = s.requests := rfl
@[simp] theorem memWrite_output (a : Nat) (v : Int) (s : State) : (memWrite a v s).output = s.output := rfl
@[simp] theorem memWrite_pending (a : Nat) (v : Int) (s : State) : (memWrite a v s).pending = s.pending := rfl
@[simp] theorem memWrite_command (a : Nat) (v : Int) (s : State) : (memWrite a v s).command = s.command := rfl

/-! ## Fault entry -/

@[simp] theorem raiseFault_cfg (A : Nat) (f : FaultInfo) (s : State) : (raiseFault A f s).cfg = s.cfg := rfl
@[simp] theorem raiseFault_tape (A : Nat) (f : FaultInfo) (s : State) : (raiseFault A f s).tape = s.tape := rfl
@[simp] theorem raiseFault_len (A : Nat) (f : FaultInfo) (s : State) : (raiseFault A f s).len = s.len := rfl
@[simp] theorem raiseFault_ip (A : Nat) (f : FaultInfo) (s : State) : (raiseFault A f s).ip = s.ip := rfl
@[simp] theorem raiseFault_rb (A : Nat) (f : FaultInfo) (s : State) : (raiseFault A f s).rb = s.rb := rfl
@[simp] theorem raiseFault_run (A : Nat) (f : FaultInfo) (s : State) : (raiseFault A f s).run = .faulted := rfl
@[simp] theorem raiseFault_fault (A : Nat) (f : FaultInfo) (s : State) : (raiseFault A f s).fault = some { info := f, ipAtFault := s.ip, instrAddr := A } := rfl
@[simp] theorem raiseFault_iter (A : Nat) (f : FaultInfo) (s : State) : (raiseFault A f s).iter = s.iter := rfl
@[simp] theorem raiseFault_input (A : Nat) (f : FaultInfo) (s : State) : (raiseFault A f s).input = s.input := rfl
@[simp] theorem raiseFault_requests (A : Nat) (f : FaultInfo) (s : State) : (raiseFault A f s).requests = s.requests := rfl
@[simp] theorem raiseFault_output (A : Nat) (f : FaultInfo) (s : State) : (raiseFault A f s).output = s.output := rfl
@[simp] theorem raiseFault_pending (A : Nat) (f : FaultInfo) (s : State) : (raiseFault A f s).pending = s.pending := rfl
@[simp] theorem raiseFault_command (A : Nat) (f : FaultInfo) (s : State) : (raiseFault A f s).command = s.command := rfl

/-! ## An input request -/

@[simp] theorem issueRequest_cfg (s : State) : (issueRequest s).cfg = s.cfg := rfl
@[simp] theorem issueRequest_tape (s : State) : (issueRequest s).tape = s.tape := rfl
@[simp] theorem issueRequest_len (s : State) : (issueRequest s).len = s.len := rfl
@[simp] theorem issueRequest_ip (s : State) : (issueRequest s).ip = s.ip := rfl
@[simp] theorem issueRequest_rb (s : State) : (issueRequest s).rb = s.rb := rfl
@[simp] theorem issueRequest_run (s : State) : (issueRequest s).run = s.run := rfl
@[simp] theorem issueRequest_fault (s : State) : (issueRequest s).fault = s.fault := rfl
@[simp] theorem issueRequest_iter (s : State) : (issueRequest s).iter = s.iter := rfl
@[simp] theorem issueRequest_input (s : State) : (issueRequest s).input = s.input := rfl
@[simp] theorem issueRequest_requests (s : State) : (issueRequest s).requests = s.requests ++ [{ interactive := s.cfg.interactiveInput }] := rfl
@[simp] theorem issueRequest_output (s : State) : (issueRequest s).output = s.output := rfl
@[simp] theorem issueRequest_pending (s : State) : (issueRequest s).pending = s.pending := rfl
@[simp] theorem issueRequest_command (s : State) : (issueRequest s).command = s.command := rfl

/-! ## OutputWrite -/

@[simp] theorem outputWrite_cfg (v : Int) (s : State) : (outputWrite v s).cfg = s.cfg := rfl
@[simp] theorem outputWrite_tape (v : Int) (s : State) : (outputWrite v s).tape = s.tape := rfl
@[simp] theorem outputWrite_len (v : Int) (s : State) : (outputWrite v s).len = s.len := rfl
@[simp] theorem outputWrite_ip (v : Int) (s : State) : (outputWrite v s).ip = s.ip := rfl
@[simp] theorem outputWrite_rb (v : Int) (s : State) : (outputWrite v s).rb = s.rb := rfl
@[simp] theorem outputWrite_run (v : Int) (s : State) : (outputWrite v s).run = s.run := rfl
@[simp] theorem outputWrite_fault (v : Int) (s : State) : (outputWrite v s).fault = s.fault := rfl
@[simp] theorem outputWrite_iter (v : Int) (s : State) : (outputWrite v s).iter = s.iter := rfl
@[simp] theorem outputWrite_input (v : Int) (s : State) : (outputWrite v s).input = s.input := rfl
@[simp] theorem outputWrite_requests (v : Int) (s : State) : (outputWrite v s).requests = s.requests := rfl
@[simp] theorem outputWrite_output (v : Int) (s : State) : (outputWrite v s).output = s.output ++ [v] := rfl
@[simp] theorem outputWrite_pending (v : Int) (s : State) : (outputWrite v s).pending = s.pending := rfl
@[simp] theorem outputWrite_command (v : Int) (s : State) : (outputWrite v s).command = s.command := rfl

/-! ## LOAD -/

@[simp] theorem loadProgram_cfg (p : List Int) (s : State) : (loadProgram p s).cfg = s.cfg := rfl
@[simp] theorem loadProgram_tape (p : List Int) (s : State) : (loadProgram p s).tape = tapeOfProgram 0 p := rfl
@[simp] theorem loadProgram_len (p : List Int) (s : State) : (loadProgram p s).len = p.length := rfl
@[simp] theorem loadProgram_ip (p : List Int) (s : State) : (loadProgram p s).ip = 0 := rfl
@[simp] theorem loadProgram_rb (p : List Int) (s : State) : (loadProgram p s).rb = 0 := rfl
@[simp] theorem loadProgram_run (p : List Int) (s : State) : (loadProgram p s).run = .ready := rfl
@[simp] theorem loadProgram_fault (p : List Int) (s : State) : (loadProgram p s).fault = none := rfl
@[simp] theorem loadProgram_iter (p : List Int) (s : State) : (loadProgram p s).iter = 0 := rfl
@[simp] theorem loadProgram_input (p : List Int) (s : State) : (loadProgram p s).input = s.input := rfl
@[simp] theorem loadProgram_requests (p : List Int) (s : State) : (loadProgram p s).requests = s.requests := rfl
@[simp] theorem loadProgram_output (p : List Int) (s : State) : (loadProgram p s).output = s.output := rfl
@[simp] theorem loadProgram_pending (p : List Int) (s : State) : (loadProgram p s).pending = s.pending := rfl
@[simp] theorem loadProgram_command (p : List Int) (s : State) : (loadProgram p s).command = s.command := rfl

end Sys2Proof.Machine
end

