-- ==== Sys2Proof/Laws/Ops.lean ====
section
/-! SUPPORT. One lemma for each shared operation of Machine/Ops.lean that says everything it can do. -/

namespace Sys2Proof.Machine

/-! ## Cells -/

/-- A cell depends on the tape and its length alone. -/
theorem cell_congr {s t : State} (ht : t.tape = s.tape) (hl : t.len = s.len) (a : Nat) : t.cell a = s.cell a := by
  simp [State.cell, ht, hl]

/-- At and above `len` a cell is 0 (spec/20_memory.md R39). -/
theorem cell_of_len_le {s : State} {a : Nat} (h : s.len ≤ a) : s.cell a = 0 := by
  simp [State.cell, Nat.not_lt.mpr h]

/-- Growing the tape changes no cell as it reads. -/
theorem cell_grow {s : State} {a : Nat} (h : s.len ≤ a) (b : Nat) : (grow a s).cell b = s.cell b := by
  simp only [State.cell, grow_len, grow_tape, Memory.get_zeroFill]
  by_cases h1 : b < s.len
  · have h2 : b < a + 1 := by omega
    have h3 : ¬ (s.len ≤ b ∧ b ≤ a) := by omega
    simp [h1, h2, h3]
  · by_cases h2 : b < a + 1
    · have h3 : s.len ≤ b ∧ b ≤ a := by omega
      simp [h1, h2, h3]
    · simp [h1, h2]

/-- A store below `len` writes its cell and no other. -/
theorem cell_memWrite {s : State} {d : Nat} (h : d < s.len) (v : Int) (b : Nat) :
    (memWrite d v s).cell b = if b = d then v else s.cell b := by
  simp only [State.cell, memWrite_len, memWrite_tape, Memory.get_set]
  by_cases hb : b = d
  · subst hb
    simp [h]
  · simp [hb]

@[simp] theorem cell_raiseFault (A : Nat) (f : FaultInfo) (s : State) (b : Nat) :
    (raiseFault A f s).cell b = s.cell b := rfl

@[simp] theorem cell_issueRequest (s : State) (b : Nat) : (issueRequest s).cell b = s.cell b := rfl

@[simp] theorem cell_outputWrite (v : Int) (s : State) (b : Nat) : (outputWrite v s).cell b = s.cell b := rfl

/-! ## Results -/

@[simp] theorem andThen_ok {α β : Type} (v : α) (s : State) (k : α → State → Res β) :
    (Res.ok v s).andThen k = k v s := rfl

@[simp] theorem andThen_raise {α β : Type} (f : FaultInfo) (s : State) (k : α → State → Res β) :
    (Res.raise f s : Res α).andThen k = .raise f s := rfl

@[simp] theorem conclude_ok (A : Nat) (s : State) : conclude A (.ok () s) = .next s := rfl

@[simp] theorem conclude_raise (A : Nat) (f : FaultInfo) (s : State) :
    conclude A (.raise f s) = .next (raiseFault A f s) := rfl

/-- An instruction always answers a next state. -/
theorem conclude_next (A : Nat) (r : Res Unit) : ∃ t, conclude A r = .next t := by
  cases r <;> exact ⟨_, rfl⟩

/-- Two results run in sequence: the first raises, or it answers and the second runs. -/
theorem andThen_eq_ok {α β : Type} {r : Res α} {k : α → State → Res β} {b : β} {t : State}
    (h : r.andThen k = .ok b t) : ∃ a s, r = .ok a s ∧ k a s = .ok b t := by
  cases r with
  | ok a s => exact ⟨a, s, rfl, h⟩
  | raise f s => cases h

/-! ## The memory controller -/

theorem fetchCell_inBounds {a : Int} {s : State} (h : InBounds s a) : fetchCell a s = .ok (s.cell a.toNat) s :=
  if_pos h

theorem fetchCell_outOfBounds {a : Int} {s : State} (h : ¬ InBounds s a) :
    fetchCell a s = .raise (.outOfBounds a .fetch) s :=
  if_neg h

/-- The fetch at `ip` in range: the cell, `ip` advanced. -/
theorem fetchRaw_inBounds {s : State} (h : s.ip < s.cfg.memLimit) :
    fetchRaw s = .ok (s.cell s.ip) { s with ip := s.ip + 1 } := by
  have hb : InBounds s (s.ip : Int) := ⟨Int.natCast_nonneg _, by exact_mod_cast h⟩
  simp [fetchRaw, fetchCell_inBounds hb]

/-- The fetch at `ip` out of range: OUT_OF_BOUNDS, `ip` as it was. -/
theorem fetchRaw_outOfBounds {s : State} (h : ¬ s.ip < s.cfg.memLimit) :
    fetchRaw s = .raise (.outOfBounds (s.ip : Int) .fetch) s := by
  have hb : ¬ InBounds s (s.ip : Int) := fun hb => h (by exact_mod_cast hb.2)
  simp [fetchRaw, fetchCell_outOfBounds hb]

/-- Everything a data read in range can do: the value is the cell, and the length is the old one, or one past the
address under EXTEND; nothing else changes. -/
theorem memRead_inBounds {a : Int} {s : State} (h : InBounds s a) :
    ∃ t, memRead a s = .ok (s.cell a.toNat) t ∧ (∀ b, t.cell b = s.cell b) ∧
      t = { s with tape := t.tape,
                   len := if s.cfg.readGrowth = .extend then max s.len (a.toNat + 1) else s.len } := by
  unfold memRead
  rw [if_pos h]
  by_cases hl : a.toNat < s.len
  · refine ⟨s, by simp [hl, State.cell], fun _ => rfl, ?_⟩
    have hm : max s.len (a.toNat + 1) = s.len := by omega
    simp [hm]
  · have hz : s.cell a.toNat = 0 := cell_of_len_le (by omega)
    cases hg : s.cfg.readGrowth with
    | extend =>
      refine ⟨grow a.toNat s, by simp [hl, hz], cell_grow (by omega), ?_⟩
      have hm : max s.len (a.toNat + 1) = a.toNat + 1 := by omega
      simp [grow, hm]
    | noExtend => exact ⟨s, by simp [hl, hz], fun _ => rfl, by simp⟩

theorem memRead_outOfBounds {a : Int} {s : State} (h : ¬ InBounds s a) :
    memRead a s = .raise (.outOfBounds a .read) s :=
  if_neg h

/-- Everything the resolution of a write target in range can do: the address, and the tape grown over it. -/
theorem resolveWrite_inBounds {a : Int} {s : State} (h : InBounds s a) :
    ∃ t, resolveWrite a s = .ok a.toNat t ∧ (∀ b, t.cell b = s.cell b) ∧
      t = { s with tape := t.tape, len := max s.len (a.toNat + 1) } := by
  unfold resolveWrite
  rw [if_pos h]
  by_cases hl : s.len ≤ a.toNat
  · refine ⟨grow a.toNat s, by simp [hl], cell_grow hl, ?_⟩
    have hm : max s.len (a.toNat + 1) = a.toNat + 1 := by omega
    simp [grow, hm]
  · refine ⟨s, by simp [hl], fun _ => rfl, ?_⟩
    have hm : max s.len (a.toNat + 1) = s.len := by omega
    simp [hm]

theorem resolveWrite_outOfBounds {a : Int} {s : State} (h : ¬ InBounds s a) :
    resolveWrite a s = .raise (.outOfBounds a .write) s :=
  if_neg h

end Sys2Proof.Machine
end

