-- ==== Sys2Proof/Laws/Arith.lean ====
section
/-! SUPPORT. The law of words (spec/40_alu.md R87) and the range of the results. -/

namespace Sys2Proof.Machine

theorem arith_of_fits {op : Nat} {r : Int} {s : State} (h : fitsW s.cfg.wordWidth r) : arith op r s = .ok r s :=
  if_pos h

theorem arith_of_overflow_wrap {op : Nat} {r : Int} {s : State} (h : ¬ fitsW s.cfg.wordWidth r)
    (ho : s.cfg.overflow = .wrap) : arith op r s = .ok (wrapW s.cfg.wordWidth r) s := by
  unfold arith
  rw [if_neg h, ho]

theorem arith_of_overflow_fault {op : Nat} {r : Int} {s : State} (h : ¬ fitsW s.cfg.wordWidth r)
    (ho : s.cfg.overflow = .fault) : arith op r s = .raise (.overflow op r) s := by
  unfold arith
  rw [if_neg h, ho]

/-- Twice half the modulus is the modulus. -/
theorem two_pow_half {W : Nat} (h : 1 ≤ W) : (2 : Int) ^ W = 2 * 2 ^ (W - 1) := by
  obtain ⟨k, rfl⟩ : ∃ k, W = k + 1 := ⟨W - 1, by omega⟩
  rw [Nat.add_sub_cancel, pow_succ, mul_comm]

/-- A wrapped result is a word. -/
theorem fitsW_wrapW {W : Nat} (h : 1 ≤ W) (r : Int) : fitsW W (wrapW W r) := by
  have hp : (0 : Int) < 2 ^ W := by positivity
  have h1 := Int.emod_nonneg (r + 2 ^ (W - 1)) (ne_of_gt hp)
  have h2 := Int.emod_lt_of_pos (r + 2 ^ (W - 1)) hp
  have h3 := two_pow_half h
  unfold fitsW wrapW
  constructor <;> omega

/-- A wrapped result is congruent to the exact one modulo `2^W`. -/
theorem dvd_wrapW_sub (W : Nat) (r : Int) : (2 : Int) ^ W ∣ wrapW W r - r := by
  have h := Int.emod_add_mul_ediv (r + 2 ^ (W - 1)) (2 ^ W)
  refine ⟨-((r + 2 ^ (W - 1)) / 2 ^ W), ?_⟩
  unfold wrapW
  linarith

/-- Everything the law of words can do with a result. -/
theorem arith_cases (op : Nat) (r : Int) (s : State) (h : 1 ≤ s.cfg.wordWidth) :
    (∃ v, arith op r s = .ok v s ∧ fitsW s.cfg.wordWidth v) ∨ arith op r s = .raise (.overflow op r) s := by
  by_cases hf : fitsW s.cfg.wordWidth r
  · exact Or.inl ⟨r, arith_of_fits hf, hf⟩
  · cases ho : s.cfg.overflow with
    | fault => exact Or.inr (arith_of_overflow_fault hf ho)
    | wrap => exact Or.inl ⟨_, arith_of_overflow_wrap hf ho, fitsW_wrapW h r⟩

/-- A word lies between the least and the greatest. -/
theorem fitsW_iff (W : Nat) (v : Int) : fitsW W v ↔ minWord W ≤ v ∧ v ≤ maxWord W := Iff.rfl

/-- 0 is a word of any width. -/
theorem fitsW_zero (W : Nat) : fitsW W 0 := by
  have : (0 : Int) < 2 ^ (W - 1) := by positivity
  unfold fitsW
  constructor <;> omega

/-- The result of a comparison is a word. -/
theorem fitsW_boolWord {W : Nat} (h : 64 ≤ W) (b : Bool) : fitsW W (boolWord b) := by
  have h1 : (2 : Int) ^ 1 ≤ 2 ^ (W - 1) := pow_le_pow_right₀ (by decide) (by omega)
  unfold fitsW boolWord
  cases b <;> simp <;> omega

end Sys2Proof.Machine
end

