-- ==== Sys2Proof/Laws/Decode.lean ====
section
/-! SUPPORT. Decimal fields of non-negative words in the arithmetic `omega` knows, and the modes as digits. -/

namespace Sys2Proof

theorem tdiv_of_nonneg {a : Int} (h : 0 ≤ a) (b : Int) : tdiv a b = a / b :=
  Int.tdiv_eq_ediv_of_nonneg h

theorem tmod_of_nonneg {a : Int} (h : 0 ≤ a) (b : Int) : tmod a b = a % b := by
  unfold tmod
  rw [tdiv_of_nonneg h, Int.emod_def]

/-- `tmod` is the core library's truncating remainder. -/
theorem tmod_eq (a b : Int) : tmod a b = Int.tmod a b := by
  unfold tmod tdiv
  rw [Int.tmod_def]

/-- The remainder has the sign of the dividend (spec/00_scope.md R14): a negative word's opcode is not positive. -/
theorem tmod_of_neg {a : Int} (h : a < 0) : -99 ≤ tmod a 100 ∧ tmod a 100 ≤ 0 := by
  have h1 : tmod (-a) 100 = -a % 100 := tmod_of_nonneg (by omega) 100
  have h2 : tmod (-a) 100 = -tmod a 100 := by rw [tmod_eq, tmod_eq, Int.neg_tmod]
  omega

/-- The fields of a non-negative word. -/
theorem decodeFields_of_nonneg {v : Int} (h : 0 ≤ v) :
    decodeFields v = { opcode := v % 100, m0 := v / 100 % 10, m1 := v / 1000 % 10, m2 := v / 10000 % 10 } := by
  unfold decodeFields
  rw [tmod_of_nonneg h, tdiv_of_nonneg h, tdiv_of_nonneg h, tdiv_of_nonneg h, tmod_of_nonneg (by omega),
    tmod_of_nonneg (by omega), tmod_of_nonneg (by omega)]

/-- The digits of `digit` are those of `decodeFields` (spec/30_encoding.md R57, R58). -/
theorem decodeFields_eq (v : Int) :
    decodeFields v = { opcode := tmod v 100, m0 := digit 2 v, m1 := digit 3 v, m2 := digit 4 v } := rfl

theorem Mode.digit_le_nine {m : Mode} (h : m.wellFormed = true) : m.digit ≤ 9 := by
  cases m with
  | position => decide
  | immediate => decide
  | relative => decide
  | invalid d =>
    simp only [Mode.wellFormed, Bool.and_eq_true, decide_eq_true_eq] at h
    exact h.2

/-- A well-formed mode is the mode its digit names. -/
theorem modeOfDigit_digit {m : Mode} (h : m.wellFormed = true) : modeOfDigit m.digit = m := by
  cases m with
  | position => rfl
  | immediate => rfl
  | relative => rfl
  | invalid d =>
    simp only [Mode.wellFormed, Bool.and_eq_true, decide_eq_true_eq] at h
    have hd : modeOfDigit (d : Int) = .invalid d := by
      unfold modeOfDigit
      rw [if_neg (by omega), if_neg (by omega), if_neg (by omega), Int.toNat_natCast]
    exact hd

/-- The mode of a decimal digit is well formed. -/
theorem wellFormed_modeOfDigit {d : Int} (h0 : 0 ≤ d) (h9 : d ≤ 9) : (modeOfDigit d).wellFormed = true := by
  unfold modeOfDigit
  split
  · rfl
  · split
    · rfl
    · split
      · rfl
      · simp only [Mode.wellFormed, Bool.and_eq_true, decide_eq_true_eq]
        omega

end Sys2Proof
end

