-- ==== Sys2Proof/Laws/Operands.lean ====
section
/-! SUPPORT. The operand resolver against the operands read off one state: fetching operand `k` after the ones before
it gives what `operandFault`, `operandValue`, `operandDest` and `lenAfterOperand` say of the first state. -/

namespace Sys2Proof.Machine

/-- `t` is `s` after its first `k` operand cells are fetched, with tape length `len`: `ip` has advanced, the tape may
have grown, no cell reads differently, and nothing else has changed. -/
def AfterOperands (s : State) (k len : Nat) (t : State) : Prop :=
  t = { s with tape := t.tape, len := len, ip := s.ip + k } ∧ ∀ b, t.cell b = s.cell b

theorem AfterOperands.start (s : State) : AfterOperands s 0 s.len s := ⟨rfl, fun _ => rfl⟩

theorem AfterOperands.cfg {s t : State} {k len : Nat} (h : AfterOperands s k len t) : t.cfg = s.cfg := by
  rw [h.1]

theorem AfterOperands.rb {s t : State} {k len : Nat} (h : AfterOperands s k len t) : t.rb = s.rb := by
  rw [h.1]

theorem AfterOperands.ip {s t : State} {k len : Nat} (h : AfterOperands s k len t) : t.ip = s.ip + k := by
  rw [h.1]

theorem AfterOperands.len_eq {s t : State} {k len : Nat} (h : AfterOperands s k len t) : t.len = len := by
  rw [h.1]

theorem AfterOperands.input {s t : State} {k len : Nat} (h : AfterOperands s k len t) : t.input = s.input := by
  rw [h.1]

theorem AfterOperands.output {s t : State} {k len : Nat} (h : AfterOperands s k len t) : t.output = s.output := by
  rw [h.1]

/-- The operand cell itself: one more cell fetched, or the fetch fault. -/
theorem fetchRaw_after {s t : State} {k len : Nat} (h : AfterOperands s k len t) :
    (s.ip + k < s.cfg.memLimit →
      ∃ t', fetchRaw t = .ok (s.raw k) t' ∧ AfterOperands s (k + 1) len t') ∧
    (¬ s.ip + k < s.cfg.memLimit → fetchRaw t = .raise (.outOfBounds ((s.ip + k : Nat) : Int) .fetch) t) := by
  constructor
  · intro hb
    have hb' : t.ip < t.cfg.memLimit := by rw [h.ip, h.cfg]; exact hb
    refine ⟨{ t with ip := t.ip + 1 }, ?_, ?_, fun b => h.2 b⟩
    · rw [fetchRaw_inBounds hb', h.2, h.ip]
      rfl
    · rw [h.ip]
      conv_lhs => rw [h.1]
      rfl
  · intro hb
    have hb' : ¬ t.ip < t.cfg.memLimit := by rw [h.ip, h.cfg]; exact hb
    rw [fetchRaw_outOfBounds hb', h.ip]

/-- The read of a value operand in mode 0 or 2, once its cell is fetched. -/
theorem memRead_after {s t : State} {k len : Nat} (h : AfterOperands s k len t) (a : Int) :
    (InBounds s a → ∃ t', memRead a t = .ok (s.cell a.toNat) t' ∧
      AfterOperands s k (if s.cfg.readGrowth = .extend then max len (a.toNat + 1) else len) t') ∧
    (¬ InBounds s a → memRead a t = .raise (.outOfBounds a .read) t) := by
  have hc := h.cfg
  constructor
  · intro hb
    have hb' : InBounds t a := by unfold InBounds; rw [hc]; exact hb
    obtain ⟨t', h1, h2, h3⟩ := memRead_inBounds hb'
    refine ⟨t', by rw [h1, h.2], ?_, fun b => (h2 b).trans (h.2 b)⟩
    rw [hc, h.len_eq] at h3
    rw [h3]
    conv_lhs => rw [h.1]
  · intro hb
    exact memRead_outOfBounds (by unfold InBounds; rw [hc]; exact hb)

/-- The resolution of a destination operand in mode 0 or 2, once its cell is fetched. -/
theorem resolveWrite_after {s t : State} {k len : Nat} (h : AfterOperands s k len t) (a : Int) :
    (InBounds s a → ∃ t', resolveWrite a t = .ok a.toNat t' ∧ AfterOperands s k (max len (a.toNat + 1)) t') ∧
    (¬ InBounds s a → resolveWrite a t = .raise (.outOfBounds a .write) t) := by
  have hc := h.cfg
  constructor
  · intro hb
    have hb' : InBounds t a := by unfold InBounds; rw [hc]; exact hb
    obtain ⟨t', h1, h2, h3⟩ := resolveWrite_inBounds hb'
    refine ⟨t', h1, ?_, fun b => (h2 b).trans (h.2 b)⟩
    rw [h.len_eq] at h3
    rw [h3]
    conv_lhs => rw [h.1]
  · intro hb
    exact resolveWrite_outOfBounds (by unfold InBounds; rw [hc]; exact hb)

/-- Everything the fetch of value operand `k` can do after the operands before it. -/
theorem fetchValue_after {s t : State} {k len : Nat} (h : AfterOperands s k len t) (m : Mode) :
    (¬ s.ip + k < s.cfg.memLimit →
      fetchValue k m t = .raise (.outOfBounds ((s.ip + k : Nat) : Int) .fetch) t) ∧
    (s.ip + k < s.cfg.memLimit → ∀ f, operandFault s k .value m = some f →
      ∃ t', fetchValue k m t = .raise f t' ∧ AfterOperands s (k + 1) len t') ∧
    (s.ip + k < s.cfg.memLimit → operandFault s k .value m = none →
      ∃ t', fetchValue k m t = .ok (operandValue s k m) t' ∧
        AfterOperands s (k + 1) (lenAfterOperand s k .value m len) t') := by
  obtain ⟨hin, hout⟩ := fetchRaw_after h
  refine ⟨fun hb => by simp [fetchValue, hout hb], fun hb f hf => ?_, fun hb hf => ?_⟩
  · obtain ⟨t1, hr, ha⟩ := hin hb
    have hrb : t1.rb = s.rb := ha.rb
    simp only [fetchValue, hr, andThen_ok, hrb]
    cases m with
    | immediate => simp [operandFault] at hf
    | invalid d =>
      simp only [operandFault, Option.some.injEq] at hf
      subst hf
      exact ⟨_, rfl, ha⟩
    | position =>
      simp only [operandFault] at hf
      by_cases hib : InBounds s (operandAddress s k .position)
      · simp [hib] at hf
      · rw [if_neg hib, Option.some.injEq] at hf
        subst hf
        exact ⟨_, (memRead_after ha _).2 hib, ha⟩
    | relative =>
      simp only [operandFault] at hf
      by_cases hib : InBounds s (operandAddress s k .relative)
      · simp [hib] at hf
      · rw [if_neg hib, Option.some.injEq] at hf
        subst hf
        exact ⟨_, (memRead_after ha _).2 hib, ha⟩
  · obtain ⟨t1, hr, ha⟩ := hin hb
    have hrb : t1.rb = s.rb := ha.rb
    simp only [fetchValue, hr, andThen_ok, hrb]
    cases m with
    | immediate => exact ⟨_, rfl, ha⟩
    | invalid d => simp [operandFault] at hf
    | position =>
      simp only [operandFault] at hf
      by_cases hib : InBounds s (operandAddress s k .position)
      · exact (memRead_after ha _).1 hib
      · simp [hib] at hf
    | relative =>
      simp only [operandFault] at hf
      by_cases hib : InBounds s (operandAddress s k .relative)
      · exact (memRead_after ha _).1 hib
      · simp [hib] at hf

/-- Everything the fetch of destination operand `k` can do after the operands before it. -/
theorem fetchAddress_after {s t : State} {k len : Nat} (h : AfterOperands s k len t) (m : Mode) :
    (¬ s.ip + k < s.cfg.memLimit →
      fetchAddress k m t = .raise (.outOfBounds ((s.ip + k : Nat) : Int) .fetch) t) ∧
    (s.ip + k < s.cfg.memLimit → ∀ f, operandFault s k .dest m = some f →
      ∃ t', fetchAddress k m t = .raise f t' ∧ AfterOperands s (k + 1) len t') ∧
    (s.ip + k < s.cfg.memLimit → operandFault s k .dest m = none →
      ∃ t', fetchAddress k m t = .ok (operandDest s k m) t' ∧
        AfterOperands s (k + 1) (lenAfterOperand s k .dest m len) t') := by
  obtain ⟨hin, hout⟩ := fetchRaw_after h
  refine ⟨fun hb => by simp [fetchAddress, hout hb], fun hb f hf => ?_, fun hb hf => ?_⟩
  · obtain ⟨t1, hr, ha⟩ := hin hb
    have hrb : t1.rb = s.rb := ha.rb
    simp only [fetchAddress, hr, andThen_ok, hrb]
    cases m with
    | immediate =>
      simp only [operandFault, Option.some.injEq] at hf
      subst hf
      exact ⟨_, rfl, ha⟩
    | invalid d =>
      simp only [operandFault, Option.some.injEq] at hf
      subst hf
      exact ⟨_, rfl, ha⟩
    | position =>
      simp only [operandFault] at hf
      by_cases hib : InBounds s (operandAddress s k .position)
      · simp [hib] at hf
      · rw [if_neg hib, Option.some.injEq] at hf
        subst hf
        exact ⟨_, (resolveWrite_after ha _).2 hib, ha⟩
    | relative =>
      simp only [operandFault] at hf
      by_cases hib : InBounds s (operandAddress s k .relative)
      · simp [hib] at hf
      · rw [if_neg hib, Option.some.injEq] at hf
        subst hf
        exact ⟨_, (resolveWrite_after ha _).2 hib, ha⟩
  · obtain ⟨t1, hr, ha⟩ := hin hb
    have hrb : t1.rb = s.rb := ha.rb
    simp only [fetchAddress, hr, andThen_ok, hrb]
    cases m with
    | immediate => simp [operandFault] at hf
    | invalid d => simp [operandFault] at hf
    | position =>
      simp only [operandFault] at hf
      by_cases hib : InBounds s (operandAddress s k .position)
      · exact (resolveWrite_after ha _).1 hib
      · simp [hib] at hf
    | relative =>
      simp only [operandFault] at hf
      by_cases hib : InBounds s (operandAddress s k .relative)
      · exact (resolveWrite_after ha _).1 hib
      · simp [hib] at hf

/-! ## The scan, one operand at a time -/

@[simp] theorem scanFrom_nil (s : State) (k len : Nat) : scanFrom s k len [] = .clear len := rfl

/-- A scan that comes out clear: the first operand is clear and so are the others. -/
theorem scanFrom_clear {s : State} {k len n : Nat} {role : Role} {m : Mode} {rest : List (Role × Mode)}
    (h : scanFrom s k len ((role, m) :: rest) = .clear n) :
    s.ip + k < s.cfg.memLimit ∧ operandFault s k role m = none ∧
      scanFrom s (k + 1) (lenAfterOperand s k role m len) rest = .clear n := by
  unfold scanFrom at h
  split at h
  · split at h
    · cases h
    · exact ⟨‹_›, ‹_›, h⟩
  · cases h

/-- A scan that stops: at the first operand's cell, at its checks, or later. -/
theorem scanFrom_stops {s : State} {k len ip n : Nat} {f : FaultInfo} {role : Role} {m : Mode}
    {rest : List (Role × Mode)} (h : scanFrom s k len ((role, m) :: rest) = .stops f ip n) :
    (¬ s.ip + k < s.cfg.memLimit ∧ f = .outOfBounds ((s.ip + k : Nat) : Int) .fetch ∧ ip = s.ip + k ∧ n = len) ∨
    (s.ip + k < s.cfg.memLimit ∧ operandFault s k role m = some f ∧ ip = s.ip + k + 1 ∧ n = len) ∨
    (s.ip + k < s.cfg.memLimit ∧ operandFault s k role m = none ∧
      scanFrom s (k + 1) (lenAfterOperand s k role m len) rest = .stops f ip n) := by
  unfold scanFrom at h
  split at h
  · split at h
    · cases h
      exact Or.inr (Or.inl ⟨‹_›, ‹_›, rfl, rfl⟩)
    · exact Or.inr (Or.inr ⟨‹_›, ‹_›, h⟩)
  · cases h
    exact Or.inl ⟨‹_›, rfl, rfl, rfl⟩

/-- A resolver that raises after `ip` has passed some operand cells: what the fault finds. -/
def RaisesAt (s : State) {α : Type} (f : FaultInfo) (ip n : Nat) (r : Res α) : Prop :=
  ∃ k t, ip = s.ip + k ∧ r = .raise f t ∧ AfterOperands s k n t

theorem RaisesAt.andThen {s : State} {α β : Type} {f : FaultInfo} {ip n : Nat} {r : Res α}
    (h : RaisesAt s f ip n r) (k : α → State → Res β) : RaisesAt s f ip n (r.andThen k) := by
  obtain ⟨j, t, hj, rfl, ht⟩ := h
  exact ⟨j, t, hj, rfl, ht⟩

/-- One value operand of a scan: clear and fetched, or the stop of the scan. -/
theorem fetchValue_scan {s t : State} {k len : Nat} {m : Mode} {rest : List (Role × Mode)}
    (h : AfterOperands s k len t) :
    (∀ n, scanFrom s k len ((.value, m) :: rest) = .clear n →
      ∃ t' len', fetchValue k m t = .ok (operandValue s k m) t' ∧ AfterOperands s (k + 1) len' t' ∧
        scanFrom s (k + 1) len' rest = .clear n) ∧
    (∀ f ip n, scanFrom s k len ((.value, m) :: rest) = .stops f ip n →
      RaisesAt s f ip n (fetchValue k m t) ∨
      ∃ t' len', fetchValue k m t = .ok (operandValue s k m) t' ∧ AfterOperands s (k + 1) len' t' ∧
        scanFrom s (k + 1) len' rest = .stops f ip n) := by
  obtain ⟨hout, hfault, hok⟩ := fetchValue_after h m
  constructor
  · intro n hs
    obtain ⟨hb, hf, hrest⟩ := scanFrom_clear hs
    obtain ⟨t', h1, h2⟩ := hok hb hf
    exact ⟨t', _, h1, h2, hrest⟩
  · intro f ip n hs
    rcases scanFrom_stops hs with ⟨hb, rfl, rfl, rfl⟩ | ⟨hb, hf, rfl, rfl⟩ | ⟨hb, hf, hrest⟩
    · exact Or.inl ⟨k, t, rfl, hout hb, h⟩
    · obtain ⟨t', h1, h2⟩ := hfault hb f hf
      exact Or.inl ⟨k + 1, t', rfl, h1, h2⟩
    · obtain ⟨t', h1, h2⟩ := hok hb hf
      exact Or.inr ⟨t', _, h1, h2, hrest⟩

/-- The destination operand that ends a scan: clear and resolved, its cell below the new length, or the stop. -/
theorem fetchAddress_scan {s t : State} {k len : Nat} {m : Mode} (h : AfterOperands s k len t) :
    (∀ n, scanFrom s k len [(.dest, m)] = .clear n →
      ∃ t', fetchAddress k m t = .ok (operandDest s k m) t' ∧ AfterOperands s (k + 1) n t' ∧
        operandDest s k m < n) ∧
    (∀ f ip n, scanFrom s k len [(.dest, m)] = .stops f ip n → RaisesAt s f ip n (fetchAddress k m t)) := by
  obtain ⟨hout, hfault, hok⟩ := fetchAddress_after h m
  constructor
  · intro n hs
    obtain ⟨hb, hf, hrest⟩ := scanFrom_clear hs
    obtain ⟨t', h1, h2⟩ := hok hb hf
    simp only [scanFrom_nil, OperandScan.clear.injEq] at hrest
    subst hrest
    refine ⟨t', h1, h2, ?_⟩
    cases m <;> simp [lenAfterOperand, operandDest]
  · intro f ip n hs
    rcases scanFrom_stops hs with ⟨hb, rfl, rfl, rfl⟩ | ⟨hb, hf, rfl, rfl⟩ | ⟨hb, hf, hrest⟩
    · exact ⟨k, t, rfl, hout hb, h⟩
    · obtain ⟨t', h1, h2⟩ := hfault hb f hf
      exact ⟨k + 1, t', rfl, h1, h2⟩
    · cases hrest

/-- Fault entry after a raise of the resolver. -/
theorem RaisesAt.faultsWith {s : State} {f : FaultInfo} {ip n : Nat} {r : Res Unit} (h : RaisesAt s f ip n r) :
    ∃ t, conclude (instrAddress s) r = .next t ∧ FaultsWith s t f ip n := by
  obtain ⟨k, t, rfl, rfl, ht⟩ := h
  refine ⟨raiseFault (instrAddress s) f t, rfl, ?_, fun b => ht.2 b⟩
  have hip := ht.ip
  unfold raiseFault
  rw [hip]
  conv_lhs => rw [ht.1]

end Sys2Proof.Machine
end

