-- ==== Sys2Proof/Laws/Families.lean ====
section
/-! SUPPORT. The shared operations of the families: what a three-operand instruction, a jump and an input come to once
their operands are clear, and where they raise an operand's fault. -/

namespace Sys2Proof.Machine

/-- The lengths of a scan: it never shrinks the tape. -/
theorem scanFrom_len_le {s : State} {ops : List (Role × Mode)} {k len : Nat} :
    (∀ n, scanFrom s k len ops = .clear n → len ≤ n) ∧
    (∀ f ip n, scanFrom s k len ops = .stops f ip n → len ≤ n ∧ s.ip + k ≤ ip ∧ ip ≤ s.ip + k + ops.length) := by
  induction ops generalizing k len with
  | nil =>
    refine ⟨fun n h => ?_, fun f ip n h => by cases h⟩
    simp only [scanFrom_nil, OperandScan.clear.injEq] at h
    omega
  | cons o rest ih =>
    obtain ⟨role, m⟩ := o
    have hle : len ≤ lenAfterOperand s k role m len := by
      unfold lenAfterOperand
      split
      · exact Nat.le_refl _
      · split <;> omega
      · omega
    refine ⟨fun n h => ?_, fun f ip n h => ?_⟩
    · have := (ih (k := k + 1)).1 n (scanFrom_clear h).2.2
      omega
    · simp only [List.length_cons]
      rcases scanFrom_stops h with ⟨-, -, rfl, rfl⟩ | ⟨-, -, rfl, rfl⟩ | ⟨-, -, h'⟩
      · omega
      · omega
      · obtain ⟨h1, h2, h3⟩ := (ih (k := k + 1)).2 f ip n h'
        omega

/-- A state after all the operands, then a store in a cell below its length. -/
theorem AfterOperands.storesAt {s t : State} {k n d : Nat} (h : AfterOperands s k n t) (hd : d < n) (v : Int) :
    memWrite d v t = { s with tape := (memWrite d v t).tape, len := n, ip := s.ip + k } ∧
      StoresAt s (memWrite d v t) d v := by
  have hd' : d < t.len := by rw [h.len_eq]; exact hd
  refine ⟨?_, ?_, fun a ha => ?_⟩
  · have h1 := h.1
    unfold memWrite
    conv_lhs => rw [h1]
  · simp [cell_memWrite hd']
  · simp [cell_memWrite hd', ha, h.2]

/-- Everything a three-operand instruction does with its operands. -/
theorem binaryOp_scan (compute : Int → Int → State → Res Int) (m0 m1 m2 : Mode) (s : State) :
    (∀ n, scanFrom s 0 s.len [(.value, m0), (.value, m1), (.dest, m2)] = .clear n →
      ∃ t, AfterOperands s 3 n t ∧ operandDest s 2 m2 < n ∧
        binaryOp compute m0 m1 m2 s =
          (compute (operandValue s 0 m0) (operandValue s 1 m1) t).andThen fun r t' =>
            .ok () (memWrite (operandDest s 2 m2) r t')) ∧
    (∀ f ip n, scanFrom s 0 s.len [(.value, m0), (.value, m1), (.dest, m2)] = .stops f ip n →
      RaisesAt s f ip n (binaryOp compute m0 m1 m2 s)) := by
  obtain ⟨hc0, hs0⟩ := fetchValue_scan (m := m0) (rest := [(.value, m1), (.dest, m2)]) (AfterOperands.start s)
  constructor
  · intro n h
    obtain ⟨s1, l1, e1, a1, r1⟩ := hc0 n h
    obtain ⟨s2, l2, e2, a2, r2⟩ := (fetchValue_scan a1).1 n r1
    obtain ⟨s3, e3, a3, hd⟩ := (fetchAddress_scan a2).1 n r2
    exact ⟨s3, a3, hd, by simp only [binaryOp, e1, e2, e3, andThen_ok]⟩
  · intro f ip n h
    unfold binaryOp
    rcases hs0 f ip n h with h0 | ⟨s1, l1, e1, a1, r1⟩
    · exact h0.andThen _
    · rw [e1, andThen_ok]
      rcases (fetchValue_scan a1).2 f ip n r1 with h1 | ⟨s2, l2, e2, a2, r2⟩
      · exact h1.andThen _
      · rw [e2, andThen_ok]
        exact ((fetchAddress_scan a2).2 f ip n r2).andThen _

/-- Everything a jump does with its operands. -/
theorem conditionalJump_scan (test : Int → Bool) (m0 m1 : Mode) (s : State) :
    (∀ n, scanFrom s 0 s.len [(.value, m0), (.value, m1)] = .clear n →
      ∃ t, AfterOperands s 2 n t ∧
        conditionalJump test m0 m1 s = jumpIf (test (operandValue s 0 m0)) (operandValue s 1 m1) t) ∧
    (∀ f ip n, scanFrom s 0 s.len [(.value, m0), (.value, m1)] = .stops f ip n →
      RaisesAt s f ip n (conditionalJump test m0 m1 s)) := by
  obtain ⟨hc0, hs0⟩ := fetchValue_scan (m := m0) (rest := [(.value, m1)]) (AfterOperands.start s)
  constructor
  · intro n h
    obtain ⟨s1, l1, e1, a1, r1⟩ := hc0 n h
    obtain ⟨s2, l2, e2, a2, r2⟩ := (fetchValue_scan a1).1 n r1
    simp only [scanFrom_nil, OperandScan.clear.injEq] at r2
    subst r2
    exact ⟨s2, a2, by simp only [conditionalJump, e1, e2, andThen_ok]⟩
  · intro f ip n h
    unfold conditionalJump
    rcases hs0 f ip n h with h0 | ⟨s1, l1, e1, a1, r1⟩
    · exact h0.andThen _
    · rw [e1, andThen_ok]
      rcases (fetchValue_scan a1).2 f ip n r1 with h1 | ⟨s2, l2, e2, a2, r2⟩
      · exact h1.andThen _
      · cases r2

/-- Everything an instruction of one value operand does with it. -/
theorem oneValue_scan (m : Mode) (s : State) :
    (∀ n, scanFrom s 0 s.len [(.value, m)] = .clear n →
      ∃ t, fetchValue 0 m s = .ok (operandValue s 0 m) t ∧ AfterOperands s 1 n t) ∧
    (∀ f ip n, scanFrom s 0 s.len [(.value, m)] = .stops f ip n → RaisesAt s f ip n (fetchValue 0 m s)) := by
  obtain ⟨hc0, hs0⟩ := fetchValue_scan (m := m) (rest := []) (AfterOperands.start s)
  constructor
  · intro n h
    obtain ⟨s1, l1, e1, a1, r1⟩ := hc0 n h
    simp only [scanFrom_nil, OperandScan.clear.injEq] at r1
    subst r1
    exact ⟨s1, e1, a1⟩
  · intro f ip n h
    rcases hs0 f ip n h with h0 | ⟨s1, l1, e1, a1, r1⟩
    · exact h0
    · cases r1

/-- Everything the jump itself can do. -/
theorem jumpIf_cases (taken : Bool) (t : Int) (s : State) :
    (taken = false ∧ jumpIf taken t s = .ok () s) ∨
    (taken = true ∧ 0 ≤ t ∧ jumpIf taken t s = .ok () { s with ip := t.toNat }) ∨
    (taken = true ∧ t < 0 ∧ jumpIf taken t s = .raise (.outOfBounds t .jump) s) := by
  cases taken with
  | false => exact Or.inl ⟨rfl, rfl⟩
  | true =>
    by_cases h : t < 0
    · exact Or.inr (Or.inr ⟨rfl, h, by simp [jumpIf, h]⟩)
    · exact Or.inr (Or.inl ⟨rfl, by omega, by simp [jumpIf, h]⟩)

/-- Everything the rest of an IN can do. -/
theorem receiveInput_cases (A d : Nat) (s : State) :
    (s.input = [] ∧ receiveInput A d s = .ok () { s with pending := some { dest := d, instrAddr := A } }) ∨
    (∃ v rest, s.input = .word v :: rest ∧
      receiveInput A d s = .ok () (memWrite d v { s with input := rest, pending := none })) ∨
    (∃ rest, s.input = .endOfInput :: rest ∧
      receiveInput A d s = .raise .inputUnavailable { s with input := rest, pending := none }) := by
  unfold receiveInput
  cases h : s.input with
  | nil => exact Or.inl ⟨rfl, rfl⟩
  | cons x rest =>
    cases x with
    | word v => exact Or.inr (Or.inl ⟨v, rest, rfl, rfl⟩)
    | endOfInput => exact Or.inr (Or.inr ⟨rest, rfl, rfl⟩)

end Sys2Proof.Machine
end

