-- ==== Sys2Proof/Laws/Invariant.lean ====
section
/-! SUPPORT. Every shared operation keeps the invariant. An instruction runs in a state that is READY with no request
pending; each operation leaves it so until the instruction's end, whether it answers or raises. -/

namespace Sys2Proof.Machine

/-- The invariant inside an instruction. -/
def Running (s : State) : Prop := Inv s ∧ s.run = .ready ∧ s.pending = none

/-- The result of an operation inside an instruction: running still, and its value as `P` says. -/
def Res.Sound {α : Type} (P : α → State → Prop) : Res α → Prop
  | .ok v t => Running t ∧ P v t
  | .raise _ t => Running t

theorem Res.Sound.andThen {α β : Type} {P : α → State → Prop} {Q : β → State → Prop} {r : Res α}
    {k : α → State → Res β} (h : r.Sound P) (hk : ∀ v t, Running t → P v t → (k v t).Sound Q) :
    (r.andThen k).Sound Q := by
  cases r with
  | ok v t => exact hk v t h.1 h.2
  | raise f t => exact h

/-- Fault entry from a running state keeps the invariant. -/
theorem inv_raiseFault {s : State} (h : Running s) (A : Nat) (f : FaultInfo) : Inv (raiseFault A f s) where
  cfgValid := h.1.cfgValid
  tapeWf := h.1.tapeWf
  tapeBelowLen := h.1.tapeBelowLen
  tapeWords := h.1.tapeWords
  lenBound := h.1.lenBound
  ipBound := h.1.ipBound
  rbWord := h.1.rbWord
  faultedIff := by simp
  faultIp := by
    intro r hr
    simp only [raiseFault_fault, Option.some.injEq] at hr
    subst hr
    rfl
  inputWords := h.1.inputWords
  outputWords := h.1.outputWords
  pendingReady := by
    intro p hp
    rw [raiseFault_pending, h.2.2] at hp
    cases hp
  iterBound := h.1.iterBound
  runHasStepLeft := h.1.runHasStepLeft

/-- The end of an instruction whose last state has the invariant. -/
theorem inv_conclude {A : Nat} {r : Res Unit} {t : State} (hok : ∀ u, r = .ok () u → Inv u)
    (hraise : ∀ f u, r = .raise f u → Running u) (h : conclude A r = .next t) : Inv t := by
  cases r with
  | ok v u =>
    rw [conclude_ok, Host.Outcome.next.injEq] at h
    exact h ▸ hok u rfl
  | raise f u =>
    rw [conclude_raise, Host.Outcome.next.injEq] at h
    exact h ▸ inv_raiseFault (hraise f u rfl) A f

theorem inv_conclude_sound {A : Nat} {r : Res Unit} {t : State} {P : Unit → State → Prop} (hr : r.Sound P)
    (h : conclude A r = .next t) : Inv t := by
  cases r with
  | ok v u => exact inv_conclude (fun u' hu => by cases hu; exact hr.1.1) (fun f u' hu => by cases hu) h
  | raise f u => exact inv_conclude (fun u' hu => by cases hu) (fun f u' hu => by cases hu; exact hr) h

/-- The tape replaced by one that is as good. -/
theorem inv_of_tape {s t : State} (h : Inv s) (hwf : Memory.wf t.tape) (hbelow : ∀ c ∈ t.tape, c.1 < t.len)
    (hwords : ∀ c ∈ t.tape, fitsW s.cfg.wordWidth c.2) (hle : s.len ≤ t.len) (hlen : t.len ≤ s.cfg.memLimit)
    (ht : t = { s with tape := t.tape, len := t.len }) : Inv t := by
  rw [ht]
  exact
    { cfgValid := h.cfgValid
      tapeWf := hwf
      tapeBelowLen := hbelow
      tapeWords := hwords
      lenBound := hlen
      ipBound := h.ipBound
      rbWord := h.rbWord
      faultedIff := h.faultedIff
      faultIp := h.faultIp
      inputWords := h.inputWords
      outputWords := h.outputWords
      pendingReady := fun p hp => ⟨(h.pendingReady p hp).1, Nat.lt_of_lt_of_le (h.pendingReady p hp).2 hle⟩
      iterBound := h.iterBound
      runHasStepLeft := h.runHasStepLeft }

theorem running_grow {s : State} {a : Nat} (h : Running s) (ha : a < s.cfg.memLimit) (hl : s.len ≤ a) :
    Running (grow a s) := by
  refine ⟨inv_of_tape h.1 (Memory.wf_zeroFill h.1.tapeWf _ _) ?_ ?_ ?_ ?_ rfl, h.2.1, h.2.2⟩
  · intro c hc
    have := h.1.tapeBelowLen c (Memory.mem_zeroFill hc)
    simp only [grow_len]
    omega
  · intro c hc
    exact h.1.tapeWords c (Memory.mem_zeroFill hc)
  · simp only [grow_len]
    omega
  · simp only [grow_len]
    omega

/-- A store of a word below `len` keeps the invariant. -/
theorem inv_memWrite {s : State} {d : Nat} {v : Int} (h : Inv s) (hd : d < s.len) (hv : fitsW s.cfg.wordWidth v) :
    Inv (memWrite d v s) := by
  refine inv_of_tape h (Memory.wf_set h.tapeWf _ _) ?_ ?_ (Nat.le_refl _) h.lenBound rfl
  · intro c hc
    rcases Memory.mem_set hc with hc | rfl
    · exact h.tapeBelowLen c hc
    · exact hd
  · intro c hc
    rcases Memory.mem_set hc with hc | rfl
    · exact h.tapeWords c hc
    · exact hv

/-- Every cell of a state with the invariant holds a word. -/
theorem fitsW_cell {s : State} (h : Inv s) (a : Nat) : fitsW s.cfg.wordWidth (s.cell a) := by
  unfold State.cell
  split
  · by_cases hm : a ∈ s.tape.map Prod.fst
    · obtain ⟨c, hc, rfl⟩ := List.mem_map.mp hm
      rw [Memory.get_of_mem h.tapeWf hc]
      exact h.tapeWords c hc
    · rw [Memory.get_of_not_mem _ _ hm]
      exact fitsW_zero _
  · exact fitsW_zero _

theorem sound_fetchRaw {s : State} (h : Running s) :
    (fetchRaw s).Sound fun v t => fitsW t.cfg.wordWidth v ∧ t.cfg = s.cfg := by
  by_cases hb : s.ip < s.cfg.memLimit
  · rw [fetchRaw_inBounds hb]
    refine ⟨⟨{ h.1 with ipBound := ?_, faultIp := ?_ }, h.2⟩, fitsW_cell h.1 _, rfl⟩
    · have := h.1.cfgValid.2.2
      show s.ip + 1 ≤ 2 ^ (s.cfg.wordWidth - 1)
      omega
    · intro r hr
      have : s.fault = none := by
        by_contra hn
        have := h.1.faultedIff.mpr hn
        rw [h.2.1] at this
        cases this
      rw [this] at hr
      cases hr
  · rw [fetchRaw_outOfBounds hb]
    exact h

theorem sound_memRead {s : State} (h : Running s) (a : Int) :
    (memRead a s).Sound fun v t => fitsW t.cfg.wordWidth v ∧ t.cfg = s.cfg := by
  unfold memRead
  by_cases hb : InBounds s a
  · rw [if_pos hb]
    have ha : a.toNat < s.cfg.memLimit := by
      obtain ⟨h1, h2⟩ := hb
      omega
    by_cases hl : a.toNat < s.len
    · rw [if_pos hl]
      have := fitsW_cell h.1 a.toNat
      rw [State.cell, if_pos hl] at this
      exact ⟨h, this, rfl⟩
    · rw [if_neg hl]
      split
      · exact ⟨running_grow h ha (by omega), fitsW_zero _, rfl⟩
      · exact ⟨h, fitsW_zero _, rfl⟩
  · rw [if_neg hb]
    exact h

theorem sound_resolveWrite {s : State} (h : Running s) (a : Int) :
    (resolveWrite a s).Sound fun d t => d < t.len ∧ t.cfg = s.cfg := by
  unfold resolveWrite
  by_cases hb : InBounds s a
  · rw [if_pos hb]
    have ha : a.toNat < s.cfg.memLimit := by
      obtain ⟨h1, h2⟩ := hb
      omega
    by_cases hl : s.len ≤ a.toNat
    · rw [if_pos hl]
      exact ⟨running_grow h ha hl, by simp, rfl⟩
    · rw [if_neg hl]
      exact ⟨h, by omega, rfl⟩
  · rw [if_neg hb]
    exact h

theorem sound_fetchValue {s : State} (h : Running s) (k : Nat) (m : Mode) :
    (fetchValue k m s).Sound fun v t => fitsW t.cfg.wordWidth v ∧ t.cfg = s.cfg := by
  refine (sound_fetchRaw h).andThen fun raw t ht hraw => ?_
  cases m with
  | immediate => exact ⟨ht, hraw⟩
  | position =>
    have h1 := sound_memRead ht (effectiveAddress .position raw t.rb)
    rw [hraw.2] at h1
    exact h1
  | relative =>
    have h1 := sound_memRead ht (effectiveAddress .relative raw t.rb)
    rw [hraw.2] at h1
    exact h1
  | invalid d => exact ht

theorem sound_fetchAddress {s : State} (h : Running s) (k : Nat) (m : Mode) :
    (fetchAddress k m s).Sound fun d t => d < t.len ∧ t.cfg = s.cfg := by
  refine (sound_fetchRaw h).andThen fun raw t ht hraw => ?_
  cases m with
  | immediate => exact ht
  | position =>
    have h1 := sound_resolveWrite ht (effectiveAddress .position raw t.rb)
    rw [hraw.2] at h1
    exact h1
  | relative =>
    have h1 := sound_resolveWrite ht (effectiveAddress .relative raw t.rb)
    rw [hraw.2] at h1
    exact h1
  | invalid d => exact ht

theorem sound_arith {s : State} (h : Running s) (op : Nat) (r : Int) :
    (arith op r s).Sound fun v t => fitsW t.cfg.wordWidth v ∧ t = s := by
  have hw := h.1.cfgValid.1
  rcases arith_cases op r s (by omega) with ⟨v, e, hv⟩ | e
  · rw [e]
    exact ⟨h, hv, rfl⟩
  · rw [e]
    exact h

/-- A three-operand instruction whose computation leaves the state and gives a word. -/
theorem sound_binaryOp {s : State} (h : Running s) (compute : Int → Int → State → Res Int) (m0 m1 m2 : Mode)
    (hc : ∀ a b t, Running t → (compute a b t).Sound fun v u => fitsW u.cfg.wordWidth v ∧ u = t) :
    (binaryOp compute m0 m1 m2 s).Sound fun _ _ => True := by
  refine (sound_fetchValue h 0 m0).andThen fun a s1 h1 _ => ?_
  refine (sound_fetchValue h1 1 m1).andThen fun b s2 h2 _ => ?_
  refine (sound_fetchAddress h2 2 m2).andThen fun d s3 h3 hd => ?_
  refine (hc a b s3 h3).andThen fun r s4 h4 hr => ?_
  obtain ⟨hr, rfl⟩ := hr
  exact ⟨⟨inv_memWrite h4.1 hd.1 hr, h4.2⟩, trivial⟩

end Sys2Proof.Machine
end

