-- ==== Sys2Proof/Laws/PerInstr.lean ====
section
/-! SUPPORT. Statements about every instruction as syntax, one lemma for each constructor. -/

namespace Sys2Proof.Laws

/-! ## The canonical word of a well-formed instruction has at most five digits and is positive (R60, R79) -/

def EncodedWordRange.Statement (i : Instr) : Prop := i.wellFormed = true → 1 ≤ encode i ∧ encode i ≤ 99999

theorem EncodedWordRange.add (m0 m1 m2 : Mode) : EncodedWordRange.Statement (.add m0 m1 m2) := by
  intro h
  simp only [Instr.wellFormed, Bool.and_eq_true] at h
  have h0 := Mode.digit_le_nine h.1.1
  have h1 := Mode.digit_le_nine h.1.2
  have h2 := Mode.digit_le_nine h.2
  simp only [encode]
  omega

theorem EncodedWordRange.mul (m0 m1 m2 : Mode) : EncodedWordRange.Statement (.mul m0 m1 m2) := by
  intro h
  simp only [Instr.wellFormed, Bool.and_eq_true] at h
  have h0 := Mode.digit_le_nine h.1.1
  have h1 := Mode.digit_le_nine h.1.2
  have h2 := Mode.digit_le_nine h.2
  simp only [encode]
  omega

theorem EncodedWordRange.inp (m0 : Mode) : EncodedWordRange.Statement (.inp m0) := by
  intro h
  have h0 := Mode.digit_le_nine h
  simp only [encode]
  omega

theorem EncodedWordRange.out (m0 : Mode) : EncodedWordRange.Statement (.out m0) := by
  intro h
  have h0 := Mode.digit_le_nine h
  simp only [encode]
  omega

theorem EncodedWordRange.jnz (m0 m1 : Mode) : EncodedWordRange.Statement (.jnz m0 m1) := by
  intro h
  simp only [Instr.wellFormed, Bool.and_eq_true] at h
  have h0 := Mode.digit_le_nine h.1
  have h1 := Mode.digit_le_nine h.2
  simp only [encode]
  omega

theorem EncodedWordRange.jz (m0 m1 : Mode) : EncodedWordRange.Statement (.jz m0 m1) := by
  intro h
  simp only [Instr.wellFormed, Bool.and_eq_true] at h
  have h0 := Mode.digit_le_nine h.1
  have h1 := Mode.digit_le_nine h.2
  simp only [encode]
  omega

theorem EncodedWordRange.lt (m0 m1 m2 : Mode) : EncodedWordRange.Statement (.lt m0 m1 m2) := by
  intro h
  simp only [Instr.wellFormed, Bool.and_eq_true] at h
  have h0 := Mode.digit_le_nine h.1.1
  have h1 := Mode.digit_le_nine h.1.2
  have h2 := Mode.digit_le_nine h.2
  simp only [encode]
  omega

theorem EncodedWordRange.eq (m0 m1 m2 : Mode) : EncodedWordRange.Statement (.eq m0 m1 m2) := by
  intro h
  simp only [Instr.wellFormed, Bool.and_eq_true] at h
  have h0 := Mode.digit_le_nine h.1.1
  have h1 := Mode.digit_le_nine h.1.2
  have h2 := Mode.digit_le_nine h.2
  simp only [encode]
  omega

theorem EncodedWordRange.arb (m0 : Mode) : EncodedWordRange.Statement (.arb m0) := by
  intro h
  have h0 := Mode.digit_le_nine h
  simp only [encode]
  omega

theorem EncodedWordRange.halt : EncodedWordRange.Statement .halt := fun _ => by decide

end Sys2Proof.Laws
end

