-- ==== Sys2Proof/Tests/Slice0.lean ====
section
/-! SUPPORT. The model's own tests: ill-formed terms, decoding, one step of each instruction, and a concrete state that
meets the hypotheses of each statement. Expected results are the spec's own vectors (spec/95_test_vectors.md, the id in
the comment) or are worked out by hand from the rule named. -/

namespace Sys2Proof.Machine

/-- A program loaded into the reset state. -/
def loaded (p : List Int) : State := loadProgram p State.reset

/-- The same, its first opcode fetched. -/
def opened (p : List Int) : State := { loaded p with ip := 1 }

/-- A state under OVERFLOW = WRAP. -/
def wrapping (s : State) : State := { s with cfg := { s.cfg with overflow := .wrap } }

/-- A state under RUN_CAP = `n`. -/
def capped (n : Nat) (s : State) : State := { s with cfg := { s.cfg with runCap := n } }

/-- A state with `n` addressable cells. -/
def bounded (n : Nat) (s : State) : State := { s with cfg := { s.cfg with memLimit := n } }

/-- The fault of a state, with `ip` and the address of the word. -/
def faultOf (s : State) : Option (FaultInfo × Nat × Nat) := s.fault.map fun r => (r.info, r.ipAtFault, r.instrAddr)

/-! ## Ill-formed terms: a digit outside 3 .. 9 under `invalid`, in each operand of each instruction -/

theorem test_illformed_mode : (Mode.invalid 2).wellFormed = false ∧ (Mode.invalid 10).wellFormed = false ∧
    (Mode.invalid 3).wellFormed = true ∧ (Mode.invalid 9).wellFormed = true := by decide

theorem test_illformed_add : (Instr.add (.invalid 2) .position .position).wellFormed = false ∧
    (Instr.add .position (.invalid 0) .position).wellFormed = false ∧
    (Instr.add .position .position (.invalid 10)).wellFormed = false := by decide

theorem test_illformed_mul : (Instr.mul (.invalid 2) .position .position).wellFormed = false ∧
    (Instr.mul .position (.invalid 0) .position).wellFormed = false ∧
    (Instr.mul .position .position (.invalid 10)).wellFormed = false := by decide

theorem test_illformed_lt : (Instr.lt (.invalid 2) .position .position).wellFormed = false ∧
    (Instr.lt .position (.invalid 0) .position).wellFormed = false ∧
    (Instr.lt .position .position (.invalid 10)).wellFormed = false := by decide

theorem test_illformed_eq : (Instr.eq (.invalid 2) .position .position).wellFormed = false ∧
    (Instr.eq .position (.invalid 0) .position).wellFormed = false ∧
    (Instr.eq .position .position (.invalid 10)).wellFormed = false := by decide

theorem test_illformed_jumps : (Instr.jnz (.invalid 1) .position).wellFormed = false ∧
    (Instr.jnz .position (.invalid 10)).wellFormed = false ∧
    (Instr.jz (.invalid 1) .position).wellFormed = false ∧
    (Instr.jz .position (.invalid 10)).wellFormed = false := by decide

theorem test_illformed_one_operand : (Instr.inp (.invalid 10)).wellFormed = false ∧
    (Instr.out (.invalid 10)).wellFormed = false ∧ (Instr.arb (.invalid 10)).wellFormed = false ∧
    Instr.halt.wellFormed = true := by decide

/-! ## Decoding -/

/-- V-DEC-2, V-DEC-7 and the word of V-RES-6. -/
theorem test_decode_add : decodeWord 11101 = .ok (.add .immediate .immediate .immediate) ∧
    decodeWord 1000001 = .ok (.add .position .position .position) ∧
    decodeWord 20001 = .ok (.add .position .position .relative) := ⟨rfl, rfl, rfl⟩

/-- V-DEC-1. -/
theorem test_decode_mul : decodeWord 1002 = .ok (.mul .position .immediate .position) := rfl

/-- V-DEC-17, V-DEC-20. -/
theorem test_decode_inp : decodeWord 203 = .ok (.inp .relative) ∧ decodeWord 103 = .ok (.inp .immediate) := ⟨rfl, rfl⟩

/-- V-DEC-16, V-DEC-22. -/
theorem test_decode_out : decodeWord 30104 = .ok (.out .immediate) ∧ decodeWord 304 = .ok (.out (.invalid 3)) :=
  ⟨rfl, rfl⟩

/-- The words of V-JMP-10 and V-JMP-11. -/
theorem test_decode_jnz : decodeWord 305 = .ok (.jnz (.invalid 3) .position) ∧
    decodeWord 1005 = .ok (.jnz .position .immediate) := ⟨rfl, rfl⟩

/-- V-DEC-19. -/
theorem test_decode_jz : decodeWord 1106 = .ok (.jz .immediate .immediate) := rfl

/-- V-DEC-3. -/
theorem test_decode_lt : decodeWord 22207 = .ok (.lt .relative .relative .relative) := rfl

/-- V-DEC-23. -/
theorem test_decode_eq : decodeWord 1108 = .ok (.eq .immediate .immediate .position) := rfl

/-- V-DEC-18 and the word of V-ARB-3. -/
theorem test_decode_arb : decodeWord 109 = .ok (.arb .immediate) ∧ decodeWord 209 = .ok (.arb .relative) := ⟨rfl, rfl⟩

/-- V-DEC-4, V-DEC-5, V-DEC-6, V-DEC-21. -/
theorem test_decode_halt : decodeWord 99 = .ok .halt ∧ decodeWord 199 = .ok .halt ∧ decodeWord 20099 = .ok .halt ∧
    decodeWord 399 = .ok .halt := ⟨rfl, rfl, rfl, rfl⟩

/-- V-DEC-8 to V-DEC-15. -/
theorem test_decode_no_instruction :
    decodeWord (-1) = .error (.unknownOpcode (-1)) ∧ decodeWord (-99) = .error (.unknownOpcode (-99)) ∧
    decodeWord (-100) = .error (.unknownOpcode 0) ∧ decodeWord (-1002) = .error (.unknownOpcode (-2)) ∧
    decodeWord 0 = .error (.unknownOpcode 0) ∧ decodeWord 10 = .error (.unknownOpcode 10) ∧
    decodeWord 98 = .error (.unknownOpcode 98) ∧ decodeWord 100 = .error (.unknownOpcode 0) :=
  ⟨rfl, rfl, rfl, rfl, rfl, rfl, rfl, rfl⟩

/-- The mode digits of V-DEC-10 and V-DEC-11. -/
theorem test_decode_negative_digits : (decodeFields (-100)).m0 = -1 ∧ (decodeFields (-1002)).m1 = -1 := ⟨rfl, rfl⟩

/-- The table's bits: the first cell is bits 63 .. 0, in two's complement. -/
theorem test_table_word : decodeTableWord 64 1002 = some (.mul .position .immediate .position) ∧
    decodeTableWord 64 (2 ^ 64 - 1) = none ∧ tableCell 64 128 (203 + 7 * 2 ^ 64) 1 = 7 := by decide

/-! ## Loading and the step -/

/-- A placed instruction is what the next step runs. -/
theorem test_fetch_word : (engineStep (State.reset.withFetchWord 64 99)).run = .halted ∧
    (engineStep (State.reset.withFetchWord 128 (104 + 7 * 2 ^ 64))).output = [7] := by decide

/-- V-FLT-1: the step after reset. -/
theorem test_reset_step : faultOf (engineStep State.reset) = some (.unknownOpcode 0 0 1, 1, 0) ∧
    (engineStep State.reset).len = 0 := by decide

/-- L1-1: a zero of a loaded program is not listed. -/
theorem test_load : (loaded [1, 0, 0, 0, 99]).tape = [(0, 1), (4, 99)] ∧ (loaded [1, 0, 0, 0, 99]).len = 5 := by decide

/-- V-MEM-11: LOAD fills a bound exactly, and one cell less refuses it. -/
theorem test_load_bound : (issue (.load [1, 0, 0, 0, 99]) (bounded 5 State.reset)).2 = .loaded ∧
    (issue (.load [1, 0, 0, 0, 99]) (bounded 4 State.reset)).2 = .loadRefused := by decide

/-- V-FLT-5: the word is no instruction. -/
theorem test_unknown_opcode : faultOf (engineStep (loaded [42])) = some (.unknownOpcode 42 42 1, 1, 0) := by decide

/-- V-MEM-8, its second step: the opcode fetch at MEM_LIMIT. -/
theorem test_fetch_out_of_bounds :
    faultOf (engineStep { loaded [1105, 1, 1048576] with ip := 1048576 }) =
      some (.outOfBounds 1048576 .fetch, 1048576, 1048576) := by decide

/-- The tape keeps its one form: storing 0 takes a cell off the list. -/
theorem test_tape_form : Memory.set [(0, 5), (3, 7)] 3 0 = [(0, 5)] ∧ Memory.set [(0, 5), (3, 7)] 1 2 =
    [(0, 5), (1, 2), (3, 7)] ∧ Memory.zeroFill [(0, 5), (3, 7)] 2 9 = [(0, 5)] := by decide

/-! ## One step of each instruction -/

/-- L1-1. -/
theorem test_add : (engineStep (loaded [1, 0, 0, 0, 99])).cell 0 = 2 ∧
    (engineStep (loaded [1, 0, 0, 0, 99])).ip = 4 := by decide

/-- V-FLT-9: the destination's fault comes before the overflow. -/
theorem test_add_fault_order : faultOf (engineStep (loaded [1101, 9223372036854775807, 1, -1, 99])) =
    some (.outOfBounds (-1) .write, 4, 0) := by decide

/-- V-MUL-1. -/
theorem test_mul : (engineStep (loaded [1102, 3, -7, 0, 99])).cell 0 = -21 := by decide

/-- V-MUL-3, V-MUL-4. -/
theorem test_mul_overflow :
    faultOf (engineStep (loaded [1102, -9223372036854775808, -1, 0, 99])) =
      some (.overflow 2 9223372036854775808, 4, 0) ∧
    (engineStep (wrapping (loaded [1102, -9223372036854775808, -1, 0, 99]))).cell 0 = -9223372036854775808 := by decide

/-- V-IN-2. -/
theorem test_inp : (engineStep { loaded [203, 3, 99] with input := [.word 42] }).cell 3 = 42 ∧
    (engineStep { loaded [203, 3, 99] with input := [.word 42] }).len = 4 := by decide

/-- V-MEM-12: END, and the growth stays. -/
theorem test_inp_end : faultOf (engineStep { loaded [3, 7, 99] with input := [.endOfInput] }) =
      some (.inputUnavailable, 2, 0) ∧
    (engineStep { loaded [3, 7, 99] with input := [.endOfInput] }).len = 8 := by decide

/-- V-OUT-1. -/
theorem test_out : (engineStep (loaded [4, 0, 99])).output = [4] := by decide

/-- V-OUT-4. -/
theorem test_out_invalid_mode : faultOf (engineStep (loaded [404, 0, 99])) = some (.invalidMode 4 0, 2, 0) := by decide

/-- V-JMP-1, V-JMP-2. -/
theorem test_jnz : (engineStep (loaded [1105, 1, 4, 99, 99])).ip = 4 ∧
    (engineStep (loaded [1105, 0, 4, 99, 99])).ip = 3 := by decide

/-- V-JMP-5. -/
theorem test_jnz_negative : faultOf (engineStep (loaded [1105, 1, -3])) = some (.outOfBounds (-3) .jump, 3, 0) := by
  decide

/-- V-JMP-3, V-JMP-4. -/
theorem test_jz : (engineStep (loaded [1106, 0, 4, 99, 99])).ip = 4 ∧
    (engineStep (loaded [1106, 5, 4, 99, 99])).ip = 3 := by decide

/-- V-JMP-6: a negative target is no fault when the jump is not taken. -/
theorem test_jz_not_taken : (engineStep (loaded [1106, 1, -3, 99])).run = .ready ∧
    (engineStep (loaded [1106, 1, -3, 99])).ip = 3 := by decide

/-- V-LT-2, V-LT-3: signed, and strict. -/
theorem test_lt : (engineStep (loaded [1107, -5, 3, 0, 99])).cell 0 = 1 ∧
    (engineStep (loaded [1107, 5, 5, 0, 99])).cell 0 = 0 := by decide

/-- V-LT-6. -/
theorem test_lt_immediate_dest : faultOf (engineStep (loaded [11107, 1, 2, 0, 99])) =
    some (.incompatibleMode 1 2, 4, 0) := by decide

/-- V-EQ-1, V-EQ-2. -/
theorem test_eq : (engineStep (loaded [1108, -1, -1, 0, 99])).cell 0 = 1 ∧
    (engineStep (loaded [1108, 1, -1, 0, 99])).cell 0 = 0 := by decide

/-- V-EQ-3: a read beyond `len` gives 0 and grows the tape. -/
theorem test_eq_growth : (engineStep (loaded [1008, 9, 0, 0, 99])).cell 0 = 1 ∧
    (engineStep (loaded [1008, 9, 0, 0, 99])).len = 10 := by decide

/-- V-ARB-2. -/
theorem test_arb : (engineStep (loaded [9, 0, 99])).rb = 9 := by decide

/-- V-ARB-3, its second step: the operand is read with the old `rb`. -/
theorem test_arb_relative : (engineStep { loaded [109, 5, 209, -3, 99] with ip := 2, rb := 5 }).rb = 214 := by decide

/-- V-HALT-2. -/
theorem test_halt : (engineStep (loaded [199, 5])).run = .halted ∧ (engineStep (loaded [199, 5])).ip = 1 := by decide

/-! ## Host commands -/

/-- L1-12: DUMP clamps, and shows nothing beyond the tape. -/
theorem test_dump : dumpCells 0 100 (loaded [2, 4, 4, 5, 99, 9801]) = [2, 4, 4, 5, 99, 9801] ∧
    dumpCells 50 100 (loaded [2, 4, 4, 5, 99, 9801]) = [] ∧
    dumpCells (-2) 2 (loaded [2, 4, 4, 5, 99, 9801]) = [2, 4] := by decide

/-- V-RUN-5, V-RUN-2, V-RUN-3: the cap at 0 and at 1. -/
theorem test_run_cap :
    (issue .run (capped 0 (loaded [99]))).2 = .runaway ∧
    (issue .run (capped 1 (loaded [99]))).2 = .ok ∧
    (issue .run (capped 1 (loaded [1105, 1, 3, 99]))).2 = .runaway := by decide

/-! ## Witnesses: states and operands that meet the hypotheses of the statements, one for each clause -/

theorem test_witness_DecodeOfEncode : (Instr.lt .relative (.invalid 3) (.invalid 9)).wellFormed = true := by decide

theorem test_witness_DecodeIgnoresDigitsAboveModes :
    (0 : Int) ≤ 1000001 ∧ (0 : Int) ≤ 1 ∧ (1000001 : Int) % 100000 = 1 % 100000 := by decide

theorem test_witness_NegativeWordIsNoInstruction : (-1 : Int) < 0 ∧ (-100 : Int) < 0 := by decide

/-- Each opcode, and the values beside the valid ones. -/
theorem test_witness_OpcodeMapIsComplete :
    tmod 1 100 = 1 ∧ tmod 1002 100 = 2 ∧ tmod 203 100 = 3 ∧ tmod 304 100 = 4 ∧ tmod 5 100 = 5 ∧ tmod 1106 100 = 6 ∧
    tmod 7 100 = 7 ∧ tmod 8 100 = 8 ∧ tmod 109 100 = 9 ∧ tmod 99 100 = 99 ∧
    ∀ v ∈ [0, 10, 98, 100, -1, -99], tmod v 100 ∉ [1, 2, 3, 4, 5, 6, 7, 8, 9, 99] := by decide

theorem test_witness_DecodedInstructionIsWellFormed : decodeWord 904 = .ok (.out (.invalid 9)) := rfl

/-- The opcode fetch at the last cell of the address space. -/
theorem test_witness_StepRunsDecodedInstruction :
    (bounded 1 (loaded [99])).run = .ready ∧ (bounded 1 (loaded [99])).pending = none ∧
    (bounded 1 (loaded [99])).ip < (bounded 1 (loaded [99])).cfg.memLimit ∧
    decodeWord ((bounded 1 (loaded [99])).cell 0) = .ok .halt := ⟨rfl, rfl, by decide, rfl⟩

/-- `ip` one below MEM_LIMIT, and at it. -/
theorem test_witness_StepTakesFetchAndOpcodeFaults :
    (loaded []).run = .ready ∧ (loaded []).pending = none ∧
    (1048575 < (loaded []).cfg.memLimit ∧ decodeWord ((loaded []).cell 1048575) = .error (.unknownOpcode 0)) ∧
    ¬ 1048576 < (loaded []).cfg.memLimit := ⟨rfl, rfl, ⟨by decide, rfl⟩, by decide⟩

theorem test_witness_StopStatesTakeNoStep :
    (engineStep (loaded [99])).run = .halted ∧ (engineStep (loaded [42])).run = .faulted := by decide

/-- V-RES-9, V-FLT-3, V-OUT-3, V-MEM-4, V-MEM-6, V-FLT-8 and an operand-cell fetch at MEM_LIMIT: each check. -/
theorem test_witness_FirstFailingOperandCheckIsTaken :
    scanOperands (.add (.invalid 9) .position .position) (opened [901, 0, 0, 0, 99]) = .stops (.invalidMode 9 0) 2 5 ∧
    scanOperands (.add .immediate .immediate .immediate) (opened [11101, 1, 1, 0, 99]) =
      .stops (.incompatibleMode 1 2) 4 5 ∧
    scanOperands (.out .position) (opened [4, -1, 99]) = .stops (.outOfBounds (-1) .read) 2 3 ∧
    scanOperands (.out .position) (opened [4, 1048576, 99]) = .stops (.outOfBounds 1048576 .read) 2 3 ∧
    scanOperands (.add .immediate .immediate .position) (opened [1101, 0, 0, 1048576, 99]) =
      .stops (.outOfBounds 1048576 .write) 4 5 ∧
    scanOperands (.add .position .position .relative) (opened [20001, 0, -1, -1, 99]) =
      .stops (.outOfBounds (-1) .read) 3 5 ∧
    scanOperands (.out .position) (bounded 1 (opened [4])) = .stops (.outOfBounds 1 .fetch) 1 1 := by decide

/-- MAX + 0 fits, MAX + 1 does not, under FAULT and under WRAP. -/
theorem test_witness_AddStoresSum :
    (scanOperands (.add .immediate .immediate .position) (opened [1101, 9223372036854775807, 0, 9]) = .clear 10 ∧
      fitsW 64 (operandValue (opened [1101, 9223372036854775807, 0, 9]) 0 .immediate +
        operandValue (opened [1101, 9223372036854775807, 0, 9]) 1 .immediate)) ∧
    (scanOperands (.add .immediate .immediate .position) (opened [1101, 9223372036854775807, 1, 9]) = .clear 10 ∧
      ¬ fitsW 64 (operandValue (opened [1101, 9223372036854775807, 1, 9]) 0 .immediate +
        operandValue (opened [1101, 9223372036854775807, 1, 9]) 1 .immediate)) ∧
    scanOperands (.add .immediate .immediate .position) (wrapping (opened [1101, 9223372036854775807, 1, 9])) =
      .clear 10 ∧
    (opened [1101, 9223372036854775807, 1, 9]).cfg.overflow = .fault ∧
    (wrapping (opened [1101, 9223372036854775807, 1, 9])).cfg.overflow = .wrap := by decide

/-- 2^62 * -2 is MIN and fits, 2^62 * 2 does not (V-MUL-7, V-MUL-8). -/
theorem test_witness_MulStoresProduct :
    (scanOperands (.mul .immediate .immediate .position) (opened [1102, 4611686018427387904, -2, 0]) = .clear 4 ∧
      fitsW 64 (operandValue (opened [1102, 4611686018427387904, -2, 0]) 0 .immediate *
        operandValue (opened [1102, 4611686018427387904, -2, 0]) 1 .immediate)) ∧
    (scanOperands (.mul .immediate .immediate .position) (opened [1102, 4611686018427387904, 2, 0]) = .clear 4 ∧
      ¬ fitsW 64 (operandValue (opened [1102, 4611686018427387904, 2, 0]) 0 .immediate *
        operandValue (opened [1102, 4611686018427387904, 2, 0]) 1 .immediate)) ∧
    scanOperands (.mul .immediate .immediate .position) (wrapping (opened [1102, 4611686018427387904, 2, 0])) =
      .clear 4 ∧
    (opened [1102, 4611686018427387904, 2, 0]).cfg.overflow = .fault ∧
    (wrapping (opened [1102, 4611686018427387904, 2, 0])).cfg.overflow = .wrap := by decide

/-- Mode 2 with a negative `rb`, and a destination at the last cell. -/
theorem test_witness_LtStoresComparison :
    scanOperands (.lt .relative .relative .position) { opened [2207, 6, 7, 1048575] with rb := -5 } = .clear 1048576 ∧
    scanOperands (.lt .immediate .immediate .position) (opened [1107, 5, 5, 0]) = .clear 4 := by decide

theorem test_witness_EqStoresComparison :
    scanOperands (.eq .position .immediate .position) (opened [1008, 9, 0, 0, 99]) = .clear 10 := by decide

/-- An answer, no answer, END. -/
theorem test_witness_InStoresAnswerWaitsOrFaults :
    (∀ answers : List InputAnswer, ({ opened [3, 7, 99] with input := answers } : State).input = answers) ∧
    scanOperands (.inp .position) { opened [3, 7, 99] with input := [.word 5] } = .clear 8 ∧
    scanOperands (.inp .position) { opened [3, 7, 99] with input := [] } = .clear 8 ∧
    scanOperands (.inp .position) { opened [3, 7, 99] with input := [.endOfInput, .word 5] } = .clear 8 :=
  ⟨fun _ => rfl, by decide, by decide, by decide⟩

/-- The state an IN without an answer leaves. -/
theorem test_witness_WaitingInputStepsToItsAnswer :
    (engineStep (loaded [3, 7, 99])).run = .ready ∧
    (engineStep (loaded [3, 7, 99])).pending = some { dest := 7, instrAddr := 0 } ∧
    7 < (engineStep (loaded [3, 7, 99])).len ∧ (engineStep (loaded [3, 7, 99])).input = [] ∧
    (engineStep (loaded [3, 7, 99])).requests = [{ interactive := false }] := by decide

theorem test_witness_OutSendsItsValue : scanOperands (.out .position) (opened [4, 1048575, 99]) = .clear 1048576 := by
  decide

/-- Taken to address 0, not taken with a negative target, taken to -1. -/
theorem test_witness_JnzJumpsOnNonZero :
    (scanOperands (.jnz .immediate .immediate) (opened [1105, -1, 0]) = .clear 3 ∧
      operandValue (opened [1105, -1, 0]) 0 .immediate ≠ 0 ∧ 0 ≤ operandValue (opened [1105, -1, 0]) 1 .immediate) ∧
    (scanOperands (.jnz .immediate .immediate) (opened [1105, 0, -1]) = .clear 3 ∧
      operandValue (opened [1105, 0, -1]) 0 .immediate = 0) ∧
    (scanOperands (.jnz .immediate .immediate) (opened [1105, 1, -1]) = .clear 3 ∧
      operandValue (opened [1105, 1, -1]) 0 .immediate ≠ 0 ∧ operandValue (opened [1105, 1, -1]) 1 .immediate < 0) := by
  decide

theorem test_witness_JzJumpsOnZero :
    (scanOperands (.jz .immediate .immediate) (opened [1106, 0, 0]) = .clear 3 ∧
      operandValue (opened [1106, 0, 0]) 0 .immediate = 0 ∧ 0 ≤ operandValue (opened [1106, 0, 0]) 1 .immediate) ∧
    (scanOperands (.jz .immediate .immediate) (opened [1106, 1, -1]) = .clear 3 ∧
      operandValue (opened [1106, 1, -1]) 0 .immediate ≠ 0) ∧
    (scanOperands (.jz .immediate .immediate) (opened [1106, 0, -1]) = .clear 3 ∧
      operandValue (opened [1106, 0, -1]) 0 .immediate = 0 ∧ operandValue (opened [1106, 0, -1]) 1 .immediate < 0) := by
  decide

/-- `rb` at MAX: adding 0 fits, adding 1 does not (V-ARB-4, V-ARB-5). -/
theorem test_witness_ArbAdjustsRelativeBase :
    (scanOperands (.arb .immediate) { opened [109, 0] with rb := 9223372036854775807 } = .clear 2 ∧
      fitsW 64 (9223372036854775807 + operandValue (opened [109, 0]) 0 .immediate)) ∧
    (scanOperands (.arb .immediate) { opened [109, 1] with rb := 9223372036854775807 } = .clear 2 ∧
      ¬ fitsW 64 (9223372036854775807 + operandValue (opened [109, 1]) 0 .immediate)) ∧
    scanOperands (.arb .immediate) (wrapping { opened [109, 1] with rb := 9223372036854775807 }) = .clear 2 ∧
    (opened [109, 1]).cfg.overflow = .fault ∧ (wrapping (opened [109, 1])).cfg.overflow = .wrap := by decide

theorem test_witness_HaltStopsTheEngine :
    (engineStep (loaded [99])).run = .halted ∧ (engineStep (loaded [99])).pending = none ∧
    (engineStep (loaded [99])).command = none ∧ tmod 20099 100 = 99 := by decide

/-- The first cell beyond the tape, and the last cell of the address space. -/
theorem test_witness_GrowZeroFills :
    (InBounds (loaded [4, 1, 99]) 3 ∧ (loaded [4, 1, 99]).len ≤ 3) ∧
    (InBounds (loaded [4, 1, 99]) 1048575 ∧ (loaded [4, 1, 99]).len ≤ 1048575) := by decide

/-- -1 and MEM_LIMIT are out of range; `len - 1` lies below `len`, `len` at it. -/
theorem test_witness_DataReadGivesCellAndGrowsUnderExtend :
    ¬ InBounds (loaded [4, 1, 99]) (-1) ∧ ¬ InBounds (loaded [4, 1, 99]) 1048576 ∧
    (InBounds (loaded [4, 1, 99]) 2 ∧ (2 : Int) < (loaded [4, 1, 99]).len) ∧
    (InBounds (loaded [4, 1, 99]) 3 ∧ ((loaded [4, 1, 99]).len : Int) ≤ 3) ∧
    (loaded [4, 1, 99]).cfg.readGrowth = .extend ∧
    ({ Config.default with readGrowth := .noExtend } : Config).readGrowth = .noExtend := by decide

theorem test_witness_WriteTargetIsCheckedAndAllocated :
    ¬ InBounds (loaded [4, 1, 99]) (-1) ∧ ¬ InBounds (loaded [4, 1, 99]) 1048576 ∧
    InBounds (loaded [4, 1, 99]) 0 ∧ InBounds (loaded [4, 1, 99]) 1048575 := by decide

theorem test_witness_StoreWritesItsCellOnly : 2 < (loaded [4, 1, 99]).len := by decide

theorem test_witness_OperandCellFetchAdvancesIp :
    (bounded 2 (opened [4])).ip < (bounded 2 (opened [4])).cfg.memLimit ∧
    ¬ (bounded 1 (opened [4])).ip < (bounded 1 (opened [4])).cfg.memLimit := by decide

theorem test_witness_TapeFormIsCanonical : Memory.wf [(0, 5), (3, 7)] ∧ ¬ Memory.wf [(0, 5), (3, 0)] ∧
    ¬ Memory.wf [(3, 7), (0, 5)] := by decide

/-- MAX fits, MAX + 1 and MIN - 1 do not. -/
theorem test_witness_WordArithmeticLaw :
    1 ≤ State.reset.cfg.wordWidth ∧ fitsW 64 9223372036854775807 ∧ ¬ fitsW 64 9223372036854775808 ∧
    ¬ fitsW 64 (-9223372036854775809) ∧ State.reset.cfg.overflow = .fault ∧
    (wrapping State.reset).cfg.overflow = .wrap := by decide

/-- A loaded program whose words and length fit. -/
theorem loaded_inv (p : List Int) (hl : Loadable p State.reset) : Inv (loaded p) where
  cfgValid := (by decide : Config.default.Valid)
  tapeWf := tapeOfProgram_wf p 0
  tapeBelowLen := fun _ hc => Nat.lt_of_lt_of_eq (tapeOfProgram_mem hc).2.1 (Nat.zero_add p.length)
  tapeWords := fun _ hc => hl.2 _ (tapeOfProgram_mem hc).2.2.1
  lenBound := hl.1
  ipBound := Nat.zero_le _
  rbWord := (by decide : fitsW 64 0)
  faultedIff := (by decide : RunState.ready = .faulted ↔ (none : Option FaultRecord) ≠ none)
  faultIp := fun _ h => nomatch h
  inputWords := fun _ h => nomatch h
  outputWords := fun _ h => nomatch h
  pendingReady := fun _ h => nomatch h
  iterBound := Nat.zero_le _
  runHasStepLeft := fun h => nomatch h

theorem test_witness_StepKeepsInvariant :
    ∃ t, Inv (loaded [1, 0, 0, 9]) ∧ step (loaded [1, 0, 0, 9]) = .next t ∧ t.len = 10 :=
  ⟨_, loaded_inv _ (by decide), rfl, by decide⟩

theorem test_witness_HostCommandsKeepInvariant :
    Inv (loaded [3, 0]) ∧ fitsW (loaded [3, 0]).cfg.wordWidth (-9223372036854775808) :=
  ⟨loaded_inv _ (by decide), by decide⟩

/-- The tape of V-MEM-1 and of V-MEM-2: 11 cells and 3, under the two settings. -/
theorem test_witness_ReadGrowthShowsInLengthOnly :
    ∃ s s' t : State, Inv s ∧ Inv s' ∧ SameButLen s s' ∧ s.len = 11 ∧ s'.len = 3 ∧
      s.cfg.readGrowth = .extend ∧ s'.cfg.readGrowth = .noExtend ∧ step s = .next t := by
  refine ⟨loaded [4, 10, 99, 0, 0, 0, 0, 0, 0, 0, 0],
    { loaded [4, 10, 99] with cfg := { Config.default with readGrowth := .noExtend } }, _, loaded_inv _ (by decide),
    { loaded_inv [4, 10, 99] (by decide) with }, ⟨rfl, fun a => ?_⟩, rfl, rfl, rfl, rfl, rfl⟩
  have h1 := get_tapeOfProgram [4, 10, 99] 0 a
  have h2 := get_tapeOfProgram [4, 10, 99, 0, 0, 0, 0, 0, 0, 0, 0] 0 a
  rw [Nat.zero_add] at h1 h2
  change (if a < 3 then Memory.get (tapeOfProgram 0 [4, 10, 99]) a else 0) =
    if a < 11 then Memory.get (tapeOfProgram 0 [4, 10, 99, 0, 0, 0, 0, 0, 0, 0, 0]) a else 0
  rw [h1, h2]
  rcases a with _ | _ | _ | _ | _ | _ | _ | _ | _ | _ | _ | a <;> simp

/-- ARB changes `rb`; an ADD without a relative operand runs; `raw + rb` at MEM_LIMIT - 1, at MEM_LIMIT and at -1. -/
theorem test_witness_RelativeBaseHasOneWriterAndOneReader :
    (∃ t, exec (.arb .immediate) (opened [109, 5]) = .next t ∧ t.rb ≠ (opened [109, 5]).rb) ∧
    (1 ≤ (opened [109, 5]).cfg.wordWidth ∧ fitsW (opened [109, 5]).cfg.wordWidth (opened [109, 5]).rb) ∧
    ((∀ m, Instr.add .position .immediate .position ≠ .arb m) ∧
      (∀ role, (role, Mode.relative) ∉ (Instr.add .position .immediate .position).operands) ∧
      ∃ t, exec (.add .position .immediate .position) (opened [1001, 0, 1, 0]) = .next t) ∧
    (opened [204, 1048575]).ip < (opened [204, 1048575]).cfg.memLimit ∧
    InBounds (opened [204, 1048575]) ((opened [204, 1048575]).cell 1 + 0) ∧
    ¬ InBounds (opened [204, 1048575]) ((opened [204, 1048575]).cell 1 + 1) ∧
    ¬ InBounds (opened [204, 1048575]) ((opened [204, 1048575]).cell 1 + -1048576) := by
  refine ⟨⟨_, rfl, by decide⟩, by decide, ⟨fun m => by simp, fun role h => ?_, _, rfl⟩, by decide⟩
  cases role <;> revert h <;> decide

theorem test_witness_OnlyInAndOutReachTheStreams :
    (∃ t, exec (.out .immediate) (opened [104, 5]) = .next t ∧ t.output ≠ []) ∧
    (∃ t, exec (.inp .position) (opened [3, 5]) = .next t ∧ t.requests ≠ [] ∧ t.pending ≠ none) :=
  ⟨⟨_, rfl, by decide⟩, _, rfl, by decide⟩

theorem test_witness_OnlyHaltHalts :
    (opened [99]).run = .ready ∧ (opened [99]).fault = none ∧
    (∃ t, exec .halt (opened [99]) = .next t ∧ t.run = .halted) ∧
    ∃ t, exec (.out (.invalid 4)) (opened [404, 0, 99]) = .next t ∧ t.run = .faulted :=
  ⟨rfl, rfl, ⟨_, rfl, rfl⟩, _, rfl, rfl⟩

/-- V-MEM-12, a fault after the operands, and V-OUT-3, a fault of an operand. -/
theorem test_witness_FaultingInstructionCommitsNothing :
    (∃ t, exec (.inp .position) { opened [3, 7, 99] with input := [.endOfInput] } = .next t ∧ t.run = .faulted ∧
      scanOperands (.inp .position) { opened [3, 7, 99] with input := [.endOfInput] } = .clear 8) ∧
    ∃ t, exec (.out .position) (opened [4, -1, 99]) = .next t ∧ t.run = .faulted ∧
      scanOperands (.out .position) (opened [4, -1, 99]) = .stops (.outOfBounds (-1) .read) 2 3 :=
  ⟨⟨_, rfl, rfl, by decide⟩, _, rfl, rfl, by decide⟩

theorem test_witness_IpAdvancesPastTheInstruction :
    (∃ t, exec (.add .position .position .position) (opened [1, 0, 0, 0]) = .next t ∧ t.run ≠ .faulted) ∧
    ∃ t, exec (.jnz .immediate .immediate) (opened [1105, 1, 0]) = .next t ∧ t.run ≠ .faulted ∧ t.ip = 0 :=
  ⟨⟨_, rfl, by decide⟩, _, rfl, by decide⟩

theorem test_witness_OnlyTheDestinationCellChanges :
    ∃ t, exec (.add .position .position .position) (opened [1, 0, 0, 0]) = .next t ∧
      t.cell 0 ≠ (opened [1, 0, 0, 0]).cell 0 := ⟨_, rfl, by decide⟩

/-- A step from READY and one from HALTED. -/
theorem test_witness_StepIgnoresRunController :
    (∃ t, step (loaded [1, 0, 0, 0]) = .next t) ∧ ∃ t, step (engineStep (loaded [99])) = .next t := ⟨⟨_, rfl⟩, _, rfl⟩

theorem test_witness_NothingShrinksTheTape : (∃ t, step (loaded [4, 10, 99]) = .next t ∧ t.len = 11) ∧
    ∀ p, Command.step ≠ .load p := ⟨⟨_, rfl, by decide⟩, fun p => by simp⟩

/-- A program that fills the tape, with the greatest and the least word. -/
theorem test_witness_LoadResetsTheEngine :
    (bounded 2 State.reset).pending = none ∧
    Loadable [9223372036854775807, -9223372036854775808] (bounded 2 State.reset) := by decide

/-- One cell too many, and a value one too great. -/
theorem test_witness_UnloadableProgramIsRefused :
    (bounded 2 State.reset).cfg.memLimit < [1, 2, 3].length ∧
    (∃ v ∈ [9223372036854775808], ¬ fitsW State.reset.cfg.wordWidth v) ∧ State.reset.pending = none := by decide

/-- Each way a RUN ends, with its counter: V-RUN-2, V-FLT-5, V-RUN-1, an IN without an answer after one step, and a
machine already FAULTED. -/
theorem test_witness_RunStepsUntilStopOrCap :
    ((capped 1 (loaded [99])).pending = none ∧ (issue .run (capped 1 (loaded [99]))).2 = .ok ∧
      (issue .run (capped 1 (loaded [99]))).1.iter = 1) ∧
    ((issue .run (capped 5 (loaded [42]))).1.run = .faulted ∧ (issue .run (capped 5 (loaded [42]))).1.iter = 1) ∧
    ((issue .run (capped 5 (loaded [1105, 1, 0]))).2 = .runaway ∧
      (issue .run (capped 5 (loaded [1105, 1, 0]))).1.iter = 5) ∧
    ((issue .run (capped 5 (loaded [104, 7, 3, 0]))).2 = .waiting ∧
      (issue .run (capped 5 (loaded [104, 7, 3, 0]))).1.iter = 1) ∧
    ((engineStep (loaded [42])).pending = none ∧ (engineStep (loaded [42])).run = .faulted) := by decide

/-- A step that waits, one that halts, one that faults, one that goes on. -/
theorem test_witness_StepCommandReports :
    (loaded [3, 0]).pending = none ∧ (engineStep (loaded [3, 0])).pending ≠ none ∧
    (engineStep (loaded [1, 0, 0, 0])).pending = none ∧ (engineStep (loaded [1, 0, 0, 0])).run = .ready ∧
    (engineStep (loaded [99])).run = .halted ∧ (engineStep (loaded [42])).run = .faulted := by decide

theorem test_witness_QueriesReturnIpAndHalted :
    ((loaded [99]).run = .ready ∧ (loaded [99]).pending = none ∧ (loaded [99]).ip < (loaded [99]).cfg.memLimit ∧
      decodeWord ((loaded [99]).cell (loaded [99]).ip) = .ok .halt) ∧
    ∃ s r, Inv s ∧ s.fault = some r ∧ r.ipAtFault = 1 := by
  refine ⟨⟨rfl, rfl, by decide, rfl⟩, raiseFault 0 (.unknownOpcode 42 42 1) { loaded [42] with ip := 1 }, _, ?_, rfl, rfl⟩
  exact { loaded_inv [42] (by decide) with
    ipBound := (by decide : 1 ≤ 2 ^ 63)
    faultedIff := by decide
    faultIp := fun r h => by cases h; rfl
    pendingReady := fun _ h => nomatch h }

theorem test_witness_SnapshotReturnsTheTape :
    (loaded [2, 4, 4, 5, 99, 9801]).pending = none ∧ 5 < (loaded [2, 4, 4, 5, 99, 9801]).len := by decide

theorem test_witness_DumpReturnsTheClampedRange : (loaded [2, 4, 4, 5, 99, 9801]).pending = none := rfl

/-- STEP into an IN without an answer, and the host's two kinds of answer to it. -/
theorem test_witness_WaitingHostMayOnlyAnswer :
    (issue .step (loaded [3, 7, 99])).1.run = .ready ∧
    (issue .step (loaded [3, 7, 99])).1.pending = some { dest := 7, instrAddr := 0 } ∧
    7 < (issue .step (loaded [3, 7, 99])).1.len ∧ (issue .step (loaded [3, 7, 99])).1.input = [] ∧
    (issue .step (loaded [3, 7, 99])).1.command ≠ some .run ∧
    (answer (.word 5) (issue .step (loaded [3, 7, 99])).1).2 = .ok := by decide

/-- A RUN that waits in its first step: the hypotheses, and each way it ends after the answer (R121): HALTED in the
second step, FAULTED on END in the first, the cap at the first step, the next IN. -/
theorem test_witness_AnswerContinuesRun :
    ((issue .run (capped 5 (loaded [3, 7, 99]))).1.run = .ready ∧
      (issue .run (capped 5 (loaded [3, 7, 99]))).1.pending = some { dest := 7, instrAddr := 0 } ∧
      (issue .run (capped 5 (loaded [3, 7, 99]))).1.input = [] ∧
      (issue .run (capped 5 (loaded [3, 7, 99]))).1.command = some .run ∧
      (issue .run (capped 5 (loaded [3, 7, 99]))).1.iter < (issue .run (capped 5 (loaded [3, 7, 99]))).1.cfg.runCap) ∧
    ((answer (.word 5) (issue .run (capped 5 (loaded [3, 7, 99]))).1).2 = .ok ∧
      (answer (.word 5) (issue .run (capped 5 (loaded [3, 7, 99]))).1).1.iter = 2) ∧
    ((answer .endOfInput (issue .run (capped 5 (loaded [3, 7, 99]))).1).1.run = .faulted ∧
      (answer .endOfInput (issue .run (capped 5 (loaded [3, 7, 99]))).1).1.iter = 1) ∧
    ((answer (.word 5) (issue .run (capped 1 (loaded [3, 7, 99]))).1).2 = .runaway ∧
      (answer (.word 5) (issue .run (capped 1 (loaded [3, 7, 99]))).1).1.iter = 1) ∧
    ((answer (.word 5) (issue .run (capped 5 (loaded [3, 7, 3, 8]))).1).2 = .waiting ∧
      (answer (.word 5) (issue .run (capped 5 (loaded [3, 7, 3, 8]))).1).1.iter = 1) := by decide

/-- A record of each kind, as a step writes it (V-OUT-3, V-FLT-5, V-OUT-4, V-IN-3, V-MUL-3, V-IN-4), and a reply that
reports no error. -/
theorem test_witness_FaultKindsAndCodes :
    (engineStep (loaded [4, -1, 99])).fault.map FaultRecord.code = some 1 ∧
    (engineStep (loaded [42])).fault.map FaultRecord.code = some 2 ∧
    (engineStep (loaded [404, 0, 99])).fault.map FaultRecord.code = some 3 ∧
    (engineStep (loaded [103, 0, 99])).fault.map FaultRecord.code = some 4 ∧
    (engineStep (loaded [1102, -9223372036854775808, -1, 0, 99])).fault.map FaultRecord.code = some 5 ∧
    (engineStep { loaded [3, 0, 99] with input := [.endOfInput] }).fault.map FaultRecord.code = some 6 ∧
    (Reply.ok ≠ .runaway ∧ ∀ r, Reply.ok ≠ .fault (some r)) :=
  ⟨by decide, by decide, by decide, by decide, by decide, by decide, by decide, fun r => by simp⟩

end Sys2Proof.Machine
end

section
/-! The relative base (spec/10_state.md R25): what an instruction does to `rb`, and where `rb` reaches what it does. -/

namespace Sys2Proof.Machine

/-! ## An instruction as the operation it concludes -/

/-- What instruction `i` with its word at `A` does, before its end writes a raised fault into the state. -/
def instrBody (i : Instr) (A : Nat) : State → Res Unit :=
  match i with
  | .add m0 m1 m2 => binaryOp (fun a b => arith 1 (a + b)) m0 m1 m2
  | .mul m0 m1 m2 => binaryOp (fun a b => arith 2 (a * b)) m0 m1 m2
  | .inp m0 => fun s => (fetchAddress 0 m0 s).andThen fun d s1 => receiveInput A d (issueRequest s1)
  | .out m0 => fun s => (fetchValue 0 m0 s).andThen fun a s1 => .ok () (outputWrite a s1)
  | .jnz m0 m1 => conditionalJump (fun a => decide (a ≠ 0)) m0 m1
  | .jz m0 m1 => conditionalJump (fun a => decide (a = 0)) m0 m1
  | .lt m0 m1 m2 => binaryOp (fun a b s3 => .ok (boolWord (decide (a < b))) s3) m0 m1 m2
  | .eq m0 m1 m2 => binaryOp (fun a b s3 => .ok (boolWord (decide (a = b))) s3) m0 m1 m2
  | .arb m0 => fun s => (fetchValue 0 m0 s).andThen fun a s1 =>
      (arith 9 (s1.rb + a) s1).andThen fun r s2 => .ok () { s2 with rb := r }
  | .halt => fun s => .ok () { s with run := .halted }

theorem exec_eq_conclude (i : Instr) (s : State) :
    exec i s = conclude (instrAddress s) (instrBody i (instrAddress s) s) := by
  cases i <;> rfl

/-- The state in which an operation answers or raises. -/
def Res.state {α : Type} : Res α → State
  | .ok _ t => t
  | .raise _ t => t

/-- The end of an instruction leaves `rb` as its operation left it. -/
theorem rb_of_conclude {A : Nat} {r : Res Unit} {t : State} (h : conclude A r = .next t) : t.rb = r.state.rb := by
  cases r <;> cases h <;> rfl

/-! ## Operations that keep `rb`, and operations that do not read it -/

/-- The same answer or raise, from a state whose `rb` is `b`. -/
def Res.withRb {α : Type} (b : Int) : Res α → Res α
  | .ok v t => .ok v { t with rb := b }
  | .raise f t => .raise f { t with rb := b }

/-- The operation leaves `rb`, whether it answers or raises. -/
def KeepsRb {α : Type} (f : State → Res α) : Prop := ∀ s, (f s).state.rb = s.rb

/-- From a state with another `rb` the operation does the same, and leaves that other `rb`. -/
def RbBlind {α : Type} (f : State → Res α) : Prop := ∀ s b, f { s with rb := b } = (f s).withRb b

theorem conclude_withRb {A : Nat} {r : Res Unit} {t : State} (h : conclude A r = .next t) (b : Int) :
    conclude A (r.withRb b) = .next { t with rb := b } := by
  cases r <;> cases h <;> rfl

/-- An operation that would carry any other `rb` along carries the one it is given. -/
theorem RbBlind.keepsRb {α : Type} {f : State → Res α} (h : RbBlind f) : KeepsRb f := by
  intro s
  have hs : f s = (f s).withRb s.rb := h s s.rb
  rw [hs]
  cases f s <;> rfl

theorem KeepsRb.andThen {α β : Type} {f : State → Res α} {k : α → State → Res β} (hf : KeepsRb f)
    (hk : ∀ v, KeepsRb (k v)) : KeepsRb fun s => (f s).andThen k := by
  intro s
  have hs := hf s
  dsimp only
  generalize f s = r at hs ⊢
  cases r with
  | ok v t => exact (hk v t).trans hs
  | raise i t => exact hs

theorem RbBlind.andThen {α β : Type} {f : State → Res α} {k : α → State → Res β} (hf : RbBlind f)
    (hk : ∀ v, RbBlind (k v)) : RbBlind fun s => (f s).andThen k := by
  intro s b
  simp only [hf s b]
  cases f s with
  | ok v t => exact hk v t b
  | raise i t => rfl

/-! ## The shared operations -/

theorem rbBlind_ok {α : Type} (v : α) : RbBlind (Res.ok v) := fun _ _ => rfl

theorem rbBlind_fetchRaw : RbBlind fetchRaw := by
  intro s b
  by_cases h : s.ip < s.cfg.memLimit
  · rw [fetchRaw_inBounds h, fetchRaw_inBounds (s := { s with rb := b }) h]
    rfl
  · rw [fetchRaw_outOfBounds h, fetchRaw_outOfBounds (s := { s with rb := b }) h]
    rfl

theorem rbBlind_memRead (a : Int) : RbBlind (memRead a) := by
  intro s b
  unfold memRead
  dsimp only [InBounds]
  split
  · split
    · rfl
    · split <;> rfl
  · rfl

theorem rbBlind_resolveWrite (a : Int) : RbBlind (resolveWrite a) := by
  intro s b
  unfold resolveWrite
  dsimp only [InBounds]
  split
  · split <;> rfl
  · rfl

theorem rbBlind_arith (op : Nat) (r : Int) : RbBlind (arith op r) := by
  intro s b
  unfold arith
  dsimp only [fitsW]
  split
  · rfl
  · split <;> rfl

theorem rbBlind_jumpIf (taken : Bool) (t : Int) : RbBlind (jumpIf taken t) := by
  intro s b
  unfold jumpIf
  split
  · split <;> rfl
  · rfl

theorem rbBlind_receiveInput (A d : Nat) : RbBlind fun s => receiveInput A d (issueRequest s) := by
  intro s b
  simp only [receiveInput, issueRequest_input]
  split <;> rfl

/-! ## The operand resolver: the relative mode alone reads `rb` (spec/30_encoding.md R64, R65) -/

theorem rbBlind_fetchValue (k : Nat) {m : Mode} (h : m ≠ .relative) : RbBlind (fetchValue k m) := by
  refine rbBlind_fetchRaw.andThen fun raw => ?_
  cases m with
  | position => exact rbBlind_memRead raw
  | immediate => exact rbBlind_ok raw
  | relative => exact absurd rfl h
  | invalid d => exact fun _ _ => rfl

theorem rbBlind_fetchAddress (k : Nat) {m : Mode} (h : m ≠ .relative) : RbBlind (fetchAddress k m) := by
  refine rbBlind_fetchRaw.andThen fun raw => ?_
  cases m with
  | position => exact rbBlind_resolveWrite raw
  | immediate => exact fun _ _ => rfl
  | relative => exact absurd rfl h
  | invalid d => exact fun _ _ => rfl

theorem keepsRb_fetchValue (k : Nat) (m : Mode) : KeepsRb (fetchValue k m) := by
  by_cases h : m = .relative
  · subst h
    exact rbBlind_fetchRaw.keepsRb.andThen fun raw s => (rbBlind_memRead (raw + s.rb)).keepsRb s
  · exact (rbBlind_fetchValue k h).keepsRb

theorem keepsRb_fetchAddress (k : Nat) (m : Mode) : KeepsRb (fetchAddress k m) := by
  by_cases h : m = .relative
  · subst h
    exact rbBlind_fetchRaw.keepsRb.andThen fun raw s => (rbBlind_resolveWrite (raw + s.rb)).keepsRb s
  · exact (rbBlind_fetchAddress k h).keepsRb

/-- A relative value operand reads at the exact sum of its cell and `rb`. -/
theorem fetchValue_relative {s : State} (k : Nat) (h : s.ip < s.cfg.memLimit) :
    fetchValue k .relative s = memRead (s.cell s.ip + s.rb) { s with ip := s.ip + 1 } := by
  simp [fetchValue, fetchRaw_inBounds h, effectiveAddress]

/-- A relative destination operand resolves the exact sum of its cell and `rb`. -/
theorem fetchAddress_relative {s : State} (k : Nat) (h : s.ip < s.cfg.memLimit) :
    fetchAddress k .relative s = resolveWrite (s.cell s.ip + s.rb) { s with ip := s.ip + 1 } := by
  simp [fetchAddress, fetchRaw_inBounds h, effectiveAddress]

/-! ## The families -/

/-- No operand of the list is relative. -/
def NoRelative (ops : List (Role × Mode)) : Prop := ∀ role, (role, Mode.relative) ∉ ops

theorem noRelative_cons {role : Role} {m : Mode} {ops : List (Role × Mode)} :
    NoRelative ((role, m) :: ops) ↔ m ≠ .relative ∧ NoRelative ops := by
  constructor
  · exact fun h => ⟨fun hm => h role (by simp [hm]), fun role' hr => h role' (List.mem_cons_of_mem _ hr)⟩
  · rintro ⟨hm, hops⟩ role' hr
    rcases List.mem_cons.mp hr with he | hr
    · cases he
      exact hm rfl
    · exact hops role' hr

theorem rbBlind_binaryOp {compute : Int → Int → State → Res Int} (hc : ∀ a b, RbBlind (compute a b))
    {m0 m1 m2 : Mode} (hrel : NoRelative [(.value, m0), (.value, m1), (.dest, m2)]) :
    RbBlind (binaryOp compute m0 m1 m2) := by
  simp only [noRelative_cons] at hrel
  obtain ⟨h0, h1, h2, -⟩ := hrel
  exact (rbBlind_fetchValue 0 h0).andThen fun a => (rbBlind_fetchValue 1 h1).andThen fun b =>
    (rbBlind_fetchAddress 2 h2).andThen fun _ => (hc a b).andThen fun _ _ _ => rfl

theorem keepsRb_binaryOp {compute : Int → Int → State → Res Int} (hc : ∀ a b, RbBlind (compute a b))
    (m0 m1 m2 : Mode) : KeepsRb (binaryOp compute m0 m1 m2) :=
  (keepsRb_fetchValue 0 m0).andThen fun a => (keepsRb_fetchValue 1 m1).andThen fun b =>
    (keepsRb_fetchAddress 2 m2).andThen fun _ => (hc a b).keepsRb.andThen fun _ _ => rfl

theorem rbBlind_conditionalJump (test : Int → Bool) {m0 m1 : Mode}
    (hrel : NoRelative [(.value, m0), (.value, m1)]) :
    RbBlind (conditionalJump test m0 m1) := by
  simp only [noRelative_cons] at hrel
  obtain ⟨h0, h1, -⟩ := hrel
  exact (rbBlind_fetchValue 0 h0).andThen fun a => (rbBlind_fetchValue 1 h1).andThen fun t =>
    rbBlind_jumpIf (test a) t

theorem keepsRb_conditionalJump (test : Int → Bool) (m0 m1 : Mode) : KeepsRb (conditionalJump test m0 m1) :=
  (keepsRb_fetchValue 0 m0).andThen fun a => (keepsRb_fetchValue 1 m1).andThen fun t =>
    (rbBlind_jumpIf (test a) t).keepsRb

/-! ## The instructions -/

/-- ARB is the only writer of `rb` (R104). -/
theorem keepsRb_instrBody {i : Instr} (hi : ∀ m, i ≠ .arb m) (A : Nat) : KeepsRb (instrBody i A) := by
  cases i with
  | add m0 m1 m2 => exact keepsRb_binaryOp (fun _ _ => rbBlind_arith _ _) m0 m1 m2
  | mul m0 m1 m2 => exact keepsRb_binaryOp (fun _ _ => rbBlind_arith _ _) m0 m1 m2
  | lt m0 m1 m2 => exact keepsRb_binaryOp (fun _ _ => rbBlind_ok _) m0 m1 m2
  | eq m0 m1 m2 => exact keepsRb_binaryOp (fun _ _ => rbBlind_ok _) m0 m1 m2
  | jnz m0 m1 => exact keepsRb_conditionalJump _ m0 m1
  | jz m0 m1 => exact keepsRb_conditionalJump _ m0 m1
  | inp m0 => exact (keepsRb_fetchAddress 0 m0).andThen fun d => (rbBlind_receiveInput A d).keepsRb
  | out m0 => exact (keepsRb_fetchValue 0 m0).andThen fun _ _ => rfl
  | arb m0 => exact absurd rfl (hi m0)
  | halt => exact fun _ => rfl

/-- Without a relative operand, only ARB's sum reads `rb`. -/
theorem rbBlind_instrBody {i : Instr} (hi : ∀ m, i ≠ .arb m) (hrel : NoRelative i.operands)
    (A : Nat) : RbBlind (instrBody i A) := by
  cases i with
  | add m0 m1 m2 => exact rbBlind_binaryOp (fun _ _ => rbBlind_arith _ _) hrel
  | mul m0 m1 m2 => exact rbBlind_binaryOp (fun _ _ => rbBlind_arith _ _) hrel
  | lt m0 m1 m2 => exact rbBlind_binaryOp (fun _ _ => rbBlind_ok _) hrel
  | eq m0 m1 m2 => exact rbBlind_binaryOp (fun _ _ => rbBlind_ok _) hrel
  | jnz m0 m1 => exact rbBlind_conditionalJump _ hrel
  | jz m0 m1 => exact rbBlind_conditionalJump _ hrel
  | inp m0 =>
    obtain ⟨h0, -⟩ := noRelative_cons.mp hrel
    exact (rbBlind_fetchAddress 0 h0).andThen fun d => rbBlind_receiveInput A d
  | out m0 =>
    obtain ⟨h0, -⟩ := noRelative_cons.mp hrel
    exact (rbBlind_fetchValue 0 h0).andThen fun _ _ _ => rfl
  | arb m0 => exact absurd rfl (hi m0)
  | halt => exact fun _ _ => rfl

theorem exec_keeps_rb {i : Instr} {s t : State} (hi : ∀ m, i ≠ .arb m) (h : exec i s = .next t) : t.rb = s.rb := by
  rw [exec_eq_conclude] at h
  exact (rb_of_conclude h).trans (keepsRb_instrBody hi _ s)

theorem exec_with_other_rb {i : Instr} {s t : State} (hi : ∀ m, i ≠ .arb m)
    (hrel : NoRelative i.operands) (h : exec i s = .next t) (b : Int) :
    exec i { s with rb := b } = .next { t with rb := b } := by
  rw [exec_eq_conclude] at h ⊢
  rw [rbBlind_instrBody hi hrel]
  exact conclude_withRb h b

/-- ARB writes a word: its sum under the law of words, or, when a fault ends it, the old `rb`. -/
theorem fitsW_rb_of_exec_arb {m : Mode} {s t : State} (hW : 1 ≤ s.cfg.wordWidth)
    (hrb : fitsW s.cfg.wordWidth s.rb) (h : exec (.arb m) s = .next t) : fitsW s.cfg.wordWidth t.rb := by
  rw [exec_eq_conclude] at h
  rw [rb_of_conclude h]
  obtain ⟨hclear, hstops⟩ := oneValue_scan m s
  cases hscan : scanFrom s 0 s.len [(.value, m)] with
  | clear n =>
    obtain ⟨u, hu, hafter⟩ := hclear n hscan
    simp only [instrBody, hu, andThen_ok]
    rcases arith_cases 9 (u.rb + operandValue s 0 m) u (by rwa [hafter.cfg]) with ⟨v, hv, hfit⟩ | hover
    · rw [hv, ← hafter.cfg]
      exact hfit
    · rw [hover]
      exact hafter.rb ▸ hrb
  | stops f ip n =>
    obtain ⟨k, u, -, hu, hafter⟩ := hstops f ip n hscan
    simp only [instrBody, hu, andThen_raise]
    exact hafter.rb ▸ hrb

theorem fitsW_rb_of_exec {i : Instr} {s t : State} (hW : 1 ≤ s.cfg.wordWidth) (hrb : fitsW s.cfg.wordWidth s.rb)
    (h : exec i s = .next t) : fitsW s.cfg.wordWidth t.rb := by
  by_cases hi : ∃ m, i = .arb m
  · obtain ⟨m, rfl⟩ := hi
    exact fitsW_rb_of_exec_arb hW hrb h
  · rw [exec_keeps_rb (not_exists.mp hi) h]
    exact hrb

/-- Settles O34: `rb` is carried along by every shared operation, so only ARB's last write changes it, and only the
address of a relative operand and ARB's sum depend on it. -/
theorem relativeBaseHasOneWriterAndOneReader : Obligations.RelativeBaseHasOneWriterAndOneReader := by
  refine ⟨loadProgram_rb, fun i s t => fitsW_rb_of_exec, fun i s t h hne => ?_,
    fun i s t b hi hrel h => exec_with_other_rb hi hrel h b, fun k s hip => ?_⟩
  · by_contra hi
    exact hne (exec_keeps_rb (not_exists.mp hi) h)
  · intro a
    rw [fetchValue_relative k hip, fetchAddress_relative k hip]
    constructor
    · intro hin
      obtain ⟨u, hread, -⟩ := memRead_inBounds (s := { s with ip := s.ip + 1 }) hin
      obtain ⟨w, hwrite, -⟩ := resolveWrite_inBounds (s := { s with ip := s.ip + 1 }) hin
      exact ⟨⟨u, hread⟩, w, hwrite⟩
    · exact fun hout => ⟨memRead_outOfBounds hout, resolveWrite_outOfBounds hout⟩

end Sys2Proof.Machine
end

section
/-! What an instruction and a step come to, said once. An instruction's scan stops and it raises there, or its operands
are clear and it ends in one of a few ways (spec/30_encoding.md R68, spec/60_exceptions.md R111). -/

namespace Sys2Proof.Machine

/-- How an instruction with its word at `A`, started in `s`, can end once its operands are resolved, which left `u`. -/
inductive InstrEnd (A : Nat) (s u : State) : Instr → Res Unit → Prop
  /-- A result is stored in the cell the destination operand names. -/
  | store {i : Instr} {k : Nat} {m : Mode} (v : Int) (hop : i.operands[k]? = some (.dest, m))
      (hd : operandDest s k m < u.len) : InstrEnd A s u i (.ok () (memWrite (operandDest s k m) v u))
  /-- The instruction's own fault: OVERFLOW, or a jump to a negative target. -/
  | raise {i : Instr} (f : FaultInfo) : InstrEnd A s u i (.raise f u)
  /-- A jump is taken. -/
  | jump {i : Instr} (hi : (∃ m0 m1, i = .jnz m0 m1) ∨ ∃ m0 m1, i = .jz m0 m1) (target : Nat) :
      InstrEnd A s u i (.ok () { u with ip := target })
  /-- A jump is not taken. -/
  | noJump {i : Instr} (hi : (∃ m0 m1, i = .jnz m0 m1) ∨ ∃ m0 m1, i = .jz m0 m1) : InstrEnd A s u i (.ok () u)
  /-- ARB writes the relative base. -/
  | setBase (m : Mode) (b : Int) : InstrEnd A s u (.arb m) (.ok () { u with rb := b })
  /-- OUT sends a word. -/
  | send (m : Mode) (v : Int) : InstrEnd A s u (.out m) (.ok () (outputWrite v u))
  /-- IN has no answer yet and waits. -/
  | await (m : Mode) : InstrEnd A s u (.inp m)
      (.ok () { issueRequest u with pending := some { dest := operandDest s 0 m, instrAddr := A } })
  /-- IN stores an answer. -/
  | receive (m : Mode) (v : Int) (rest : List InputAnswer) (hd : operandDest s 0 m < u.len) :
      InstrEnd A s u (.inp m)
        (.ok () (memWrite (operandDest s 0 m) v { issueRequest u with input := rest, pending := none }))
  /-- IN is answered END. -/
  | inputEnds (m : Mode) (rest : List InputAnswer) : InstrEnd A s u (.inp m)
      (.raise .inputUnavailable { issueRequest u with input := rest, pending := none })
  /-- HALT. -/
  | halt : InstrEnd A s u .halt (.ok () { u with run := .halted })

/-- `r` is what instruction `i` comes to in `s`: one of its ends after a clear scan, or the raise where the scan stops. -/
def FollowsScan (i : Instr) (A : Nat) (s : State) (r : Res Unit) : Prop :=
  (∀ n, scanOperands i s = .clear n → ∃ u, AfterOperands s i.arity n u ∧ InstrEnd A s u i r) ∧
  ∀ f ip n, scanOperands i s = .stops f ip n → RaisesAt s f ip n r

theorem arith_ok_or_raise (op : Nat) (r : Int) (s : State) :
    (∃ v, arith op r s = .ok v s) ∨ ∃ f, arith op r s = .raise f s := by
  by_cases hf : fitsW s.cfg.wordWidth r
  · exact Or.inl ⟨r, arith_of_fits hf⟩
  · cases ho : s.cfg.overflow with
    | wrap => exact Or.inl ⟨_, arith_of_overflow_wrap hf ho⟩
    | fault => exact Or.inr ⟨_, arith_of_overflow_fault hf ho⟩

/-- A three-operand instruction whose result is computed, or fails, without touching the state. -/
theorem binaryOp_followsScan {compute : Int → Int → State → Res Int} {i : Instr} {m0 m1 m2 : Mode}
    (hi : i.operands = [(.value, m0), (.value, m1), (.dest, m2)])
    (hc : ∀ a b u, (∃ v, compute a b u = .ok v u) ∨ ∃ f, compute a b u = .raise f u) (A : Nat) (s : State) :
    FollowsScan i A s (binaryOp compute m0 m1 m2 s) := by
  obtain ⟨hclear, hstops⟩ := binaryOp_scan compute m0 m1 m2 s
  simp only [FollowsScan, scanOperands, Instr.arity, hi]
  refine ⟨fun n hs => ?_, hstops⟩
  obtain ⟨u, hu, hd, hr⟩ := hclear n hs
  refine ⟨u, hu, ?_⟩
  rw [hr]
  rcases hc (operandValue s 0 m0) (operandValue s 1 m1) u with ⟨v, hv⟩ | ⟨f, hf⟩
  · rw [hv]
    exact .store v (by simp [hi]) (hu.len_eq.symm ▸ hd)
  · rw [hf]
    exact .raise f

theorem conditionalJump_followsScan (test : Int → Bool) {i : Instr} {m0 m1 : Mode}
    (hi : (∃ m0 m1, i = .jnz m0 m1) ∨ ∃ m0 m1, i = .jz m0 m1)
    (hops : i.operands = [(.value, m0), (.value, m1)]) (A : Nat) (s : State) :
    FollowsScan i A s (conditionalJump test m0 m1 s) := by
  obtain ⟨hclear, hstops⟩ := conditionalJump_scan test m0 m1 s
  simp only [FollowsScan, scanOperands, Instr.arity, hops]
  refine ⟨fun n hs => ?_, hstops⟩
  obtain ⟨u, hu, hr⟩ := hclear n hs
  refine ⟨u, hu, ?_⟩
  rw [hr]
  rcases jumpIf_cases (test (operandValue s 0 m0)) (operandValue s 1 m1) u with
    ⟨-, hj⟩ | ⟨-, -, hj⟩ | ⟨-, -, hj⟩ <;> rw [hj]
  · exact .noJump hi
  · exact .jump hi _
  · exact .raise _

/-- An instruction of one value operand, whose end from there is known. -/
theorem oneValue_followsScan {i : Instr} {m : Mode} {A : Nat} {s : State} {k : Int → State → Res Unit}
    (hops : i.operands = [(.value, m)]) (hk : ∀ v u, InstrEnd A s u i (k v u)) :
    FollowsScan i A s ((fetchValue 0 m s).andThen k) := by
  obtain ⟨hclear, hstops⟩ := oneValue_scan m s
  simp only [FollowsScan, scanOperands, Instr.arity, hops]
  refine ⟨fun n hs => ?_, fun f ip n hs => (hstops f ip n hs).andThen _⟩
  obtain ⟨u, hr, hu⟩ := hclear n hs
  exact ⟨u, hu, by rw [hr]; exact hk _ u⟩

theorem inp_followsScan (m : Mode) (A : Nat) (s : State) :
    FollowsScan (.inp m) A s ((fetchAddress 0 m s).andThen fun d u => receiveInput A d (issueRequest u)) := by
  obtain ⟨hclear, hstops⟩ := fetchAddress_scan (m := m) (AfterOperands.start s)
  refine ⟨fun n hs => ?_, fun f ip n hs => (hstops f ip n hs).andThen _⟩
  obtain ⟨u, hr, hu, hd⟩ := hclear n hs
  refine ⟨u, hu, ?_⟩
  rw [hr, andThen_ok]
  rcases receiveInput_cases A (operandDest s 0 m) (issueRequest u) with
    ⟨-, h⟩ | ⟨v, rest, -, h⟩ | ⟨rest, -, h⟩ <;> rw [h]
  · exact .await m
  · exact .receive m v rest (hu.len_eq.symm ▸ hd)
  · exact .inputEnds m rest

theorem instrBody_followsScan (i : Instr) (A : Nat) (s : State) : FollowsScan i A s (instrBody i A s) := by
  cases i with
  | add m0 m1 m2 => exact binaryOp_followsScan rfl (fun _ _ => arith_ok_or_raise _ _) A s
  | mul m0 m1 m2 => exact binaryOp_followsScan rfl (fun _ _ => arith_ok_or_raise _ _) A s
  | lt m0 m1 m2 => exact binaryOp_followsScan rfl (fun _ _ _ => .inl ⟨_, rfl⟩) A s
  | eq m0 m1 m2 => exact binaryOp_followsScan rfl (fun _ _ _ => .inl ⟨_, rfl⟩) A s
  | jnz m0 m1 => exact conditionalJump_followsScan _ (.inl ⟨m0, m1, rfl⟩) rfl A s
  | jz m0 m1 => exact conditionalJump_followsScan _ (.inr ⟨m0, m1, rfl⟩) rfl A s
  | inp m => exact inp_followsScan m A s
  | out m => exact oneValue_followsScan rfl fun v _ => .send m v
  | arb m =>
    refine oneValue_followsScan rfl fun a u => ?_
    rcases arith_ok_or_raise 9 (u.rb + a) u with ⟨v, hv⟩ | ⟨f, hf⟩
    · rw [hv]
      exact .setBase m v
    · rw [hf]
      exact .raise f
  | halt =>
    refine ⟨fun n hs => ?_, fun f ip n hs => by cases hs⟩
    cases hs
    exact ⟨s, AfterOperands.start s, .halt⟩

/-- Everything an instruction can do: the fault of its first failing operand check, or one of its ends. -/
theorem exec_cases {i : Instr} {s t : State} (h : exec i s = .next t) :
    (∃ f ip n, scanOperands i s = .stops f ip n ∧ FaultsWith s t f ip n) ∨
    ∃ n u r, scanOperands i s = .clear n ∧ AfterOperands s i.arity n u ∧ InstrEnd (instrAddress s) s u i r ∧
      conclude (instrAddress s) r = .next t := by
  rw [exec_eq_conclude] at h
  obtain ⟨hclear, hstops⟩ := instrBody_followsScan i (instrAddress s) s
  cases hscan : scanOperands i s with
  | clear n =>
    obtain ⟨u, hu, hend⟩ := hclear n hscan
    exact Or.inr ⟨n, u, _, rfl, hu, hend, h⟩
  | stops f ip n =>
    obtain ⟨t', ht', hfault⟩ := (hstops f ip n hscan).faultsWith
    rw [h] at ht'
    cases ht'
    exact Or.inl ⟨f, ip, n, rfl, hfault⟩

/-! ## What a step comes to -/

/-- The front of a step: the word decodes and runs with `ip` past it, or a fault is taken there. -/
theorem fetchInstr_cases (s : State) :
    (∃ i, fetchInstr s = .run i { s with ip := s.ip + 1 }) ∨
    ∃ f ip, fetchInstr s = .stop (raiseFault s.ip f { s with ip := ip }) := by
  by_cases hb : s.ip < s.cfg.memLimit
  · simp only [fetchInstr, fetchRaw_inBounds hb]
    cases hdec : decodeWord (s.cell s.ip) with
    | ok i => exact Or.inl ⟨i, rfl⟩
    | error e =>
      cases e
      exact Or.inr ⟨_, _, rfl⟩
  · simp only [fetchInstr, fetchRaw_outOfBounds hb]
    exact Or.inr ⟨_, s.ip, rfl⟩

/-- What a step that answers is: none in HALTED; in READY the rest of a waiting IN, a fault of the fetch, or an
instruction. -/
theorem step_cases {s t : State} (h : step s = .next t) :
    (s.run = .halted ∧ t = s) ∨
    (s.run = .ready ∧ ∃ p, s.pending = some p ∧ resumeInp p s = .next t) ∨
    (s.run = .ready ∧ s.pending = none ∧
      ((∃ f ip, t = raiseFault s.ip f { s with ip := ip }) ∨ ∃ i, exec i { s with ip := s.ip + 1 } = .next t)) := by
  unfold step at h
  split at h
  case h_1 hrun =>
    cases h
    exact Or.inl ⟨hrun, rfl⟩
  case h_2 => cases h
  case h_3 hrun =>
    split at h
    case h_1 p hp => exact Or.inr (Or.inl ⟨hrun, p, hp, h⟩)
    case h_2 hp =>
      refine Or.inr (Or.inr ⟨hrun, hp, ?_⟩)
      rcases fetchInstr_cases s with ⟨i, hf⟩ | ⟨f, ip, hf⟩ <;> rw [hf] at h
      · exact Or.inr ⟨i, h⟩
      · cases h
        exact Or.inl ⟨f, ip, rfl⟩

/-! ## What an end changes -/

/-- Past its operands an instruction grows nothing. -/
theorem InstrEnd.len_eq {A : Nat} {s u t : State} {i : Instr} {r : Res Unit} (h : InstrEnd A s u i r)
    (ht : conclude A r = .next t) : t.len = u.len := by
  cases h <;> cases ht <;> rfl

theorem InstrEnd.output_eq {A : Nat} {s u t : State} {i : Instr} {r : Res Unit} (h : InstrEnd A s u i r)
    (ht : conclude A r = .next t) (hi : ∀ m, i ≠ .out m) : t.output = u.output := by
  cases h with
  | send m v => exact absurd rfl (hi m)
  | _ => cases ht; rfl

theorem InstrEnd.inputSide_eq {A : Nat} {s u t : State} {i : Instr} {r : Res Unit} (h : InstrEnd A s u i r)
    (ht : conclude A r = .next t) (hi : ∀ m, i ≠ .inp m) :
    t.input = u.input ∧ t.requests = u.requests ∧ t.pending = u.pending := by
  cases h with
  | await m | receive m | inputEnds m => exact absurd rfl (hi m)
  | _ => cases ht; exact ⟨rfl, rfl, rfl⟩

/-- An end that leaves the engine FAULTED is a raise, and a raise has written at most the input side. -/
theorem InstrEnd.of_faulted {A : Nat} {s u t : State} {i : Instr} {r : Res Unit} (h : InstrEnd A s u i r)
    (ht : conclude A r = .next t) (hu : u.run = .ready) (hrun : t.run = .faulted) :
    t = { u with input := t.input, requests := t.requests, pending := t.pending, run := .faulted, fault := t.fault } := by
  cases h with
  | raise f | inputEnds m rest => cases ht; rfl
  | halt => cases ht; cases hrun
  | _ => cases ht; simp [hu] at hrun

/-- An instruction never makes the tape shorter (spec/20_memory.md R48). -/
theorem len_le_of_exec {i : Instr} {s t : State} (h : exec i s = .next t) : s.len ≤ t.len := by
  rcases exec_cases h with ⟨f, ip, n, hscan, ht, -⟩ | ⟨n, u, r, hscan, hu, hend, hr⟩
  · rw [ht]
    exact (scanFrom_len_le.2 f ip n hscan).1
  · rw [hend.len_eq hr, hu.len_eq]
    exact scanFrom_len_le.1 n hscan

end Sys2Proof.Machine
end

section
/-! The memory controller and the tape (spec/20_memory.md). -/

namespace Sys2Proof.Machine

/-! ## The primitives -/

/-- Settles O23: the zero-fill clears exactly the cells `len .. a`. -/
theorem growZeroFills : Obligations.GrowZeroFills := by
  intro a s _ _
  simp only [grow_tape, Memory.get_zeroFill]
  refine ⟨fun k hlo hhi => if_pos ⟨hlo, hhi⟩, fun k hk => if_neg ?_, rfl⟩
  omega

/-- Settles O24, by the branches of the data read: the range check, then `len`, then READ_GROWTH. -/
theorem dataReadGivesCellAndGrowsUnderExtend : Obligations.DataReadGivesCellAndGrowsUnderExtend := by
  intro a s
  refine ⟨memRead_outOfBounds, fun hb hlt => ?_, fun hb hle hg => ?_, fun hb hle hg => ?_⟩
  · have hlt : a.toNat < s.len := by omega
    simp [memRead, hb, hlt, State.cell]
  · have hle : ¬ a.toNat < s.len := by omega
    simp [memRead, hb, hle, hg]
  · have hle : ¬ a.toNat < s.len := by omega
    simp [memRead, hb, hle, hg]

/-- Settles O26: below `len` a store is what `cell_memWrite` says, and it is a write of the tape alone. -/
theorem storeWritesItsCellOnly : Obligations.StoreWritesItsCellOnly := by
  intro d v s hd
  exact ⟨⟨by simp [cell_memWrite hd], fun a ha => by simp [cell_memWrite hd, ha]⟩, rfl⟩

/-! ## Instructions -/

theorem output_eq_of_exec {i : Instr} {s t : State} (hi : ∀ m, i ≠ .out m) (h : exec i s = .next t) :
    t.output = s.output := by
  rcases exec_cases h with ⟨f, ip, n, -, ht, -⟩ | ⟨n, u, r, -, hu, hend, hr⟩
  · rw [ht]
  · rw [hend.output_eq hr hi, hu.output]

theorem inputSide_eq_of_exec {i : Instr} {s t : State} (hi : ∀ m, i ≠ .inp m) (h : exec i s = .next t) :
    t.input = s.input ∧ t.requests = s.requests ∧ t.pending = s.pending := by
  rcases exec_cases h with ⟨f, ip, n, -, ht, -⟩ | ⟨n, u, r, -, ⟨hu, -⟩, hend, hr⟩
  · rw [ht]
    exact ⟨rfl, rfl, rfl⟩
  · have hkeep := hend.inputSide_eq hr hi
    rw [hu] at hkeep
    exact hkeep

/-- Settles O35: resolving operands reaches no stream, and of the ends of an instruction only those of OUT and IN do. -/
theorem onlyInAndOutReachTheStreams : Obligations.OnlyInAndOutReachTheStreams := by
  intro i s t h
  constructor
  · intro hne
    by_contra hi
    exact hne (output_eq_of_exec (not_exists.mp hi) h)
  · intro hne
    by_contra hi
    obtain ⟨hinput, hrequests, hpending⟩ := inputSide_eq_of_exec (not_exists.mp hi) h
    exact hne.elim (· hinput) (·.elim (· hrequests) (· hpending))

/-- Settles O37: a fault of the operand scan leaves what `FaultsWith` says, and the instruction's own fault is raised
before its store, jump, output or `rb` is written. -/
theorem faultingInstructionCommitsNothing : Obligations.FaultingInstructionCommitsNothing := by
  intro i s t hready h hrun
  rcases exec_cases h with ⟨f, ip, n, hscan, ht, hcells⟩ | ⟨n, u, r, hscan, hu, hend, hr⟩
  · refine ⟨hcells, by rw [ht], by rw [ht], fun _ _ _ hs => ?_, fun _ hs => ?_⟩
    · cases hscan.symm.trans hs
      rw [ht]
      exact ⟨rfl, rfl⟩
    · cases hscan.symm.trans hs
  · have ht := hend.of_faulted hr (by rw [hu.1]; exact hready) hrun
    have hcells : SameCells s t := fun a => (cell_congr (by rw [ht]) (by rw [ht]) a).trans (hu.2 a)
    refine ⟨hcells, by rw [ht]; exact hu.rb, by rw [ht]; exact hu.output, fun _ _ _ hs => ?_, fun _ hs => ?_⟩
    · cases hscan.symm.trans hs
    · cases hscan.symm.trans hs
      rw [ht]
      exact ⟨hu.ip, hu.len_eq⟩

/-! ## The tape length over steps, commands and answers -/

/-- The destination of a waiting IN is allocated already: its end does not change the tape length. -/
theorem len_of_resumeInp {p : PendingInput} {s t : State} (h : resumeInp p s = .next t) : t.len = s.len := by
  unfold resumeInp at h
  rcases receiveInput_cases p.instrAddr p.dest s with ⟨-, hr⟩ | ⟨v, rest, -, hr⟩ | ⟨rest, -, hr⟩ <;> rw [hr] at h <;>
    cases h <;> rfl

theorem len_le_of_step {s t : State} (h : step s = .next t) : s.len ≤ t.len := by
  rcases step_cases h with ⟨-, rfl⟩ | ⟨-, p, -, hp⟩ | ⟨-, -, ⟨f, ip, rfl⟩ | ⟨i, hi⟩⟩
  · exact Nat.le_refl _
  · exact (len_of_resumeInp hp).ge
  · exact Nat.le_refl _
  · exact len_le_of_exec (s := { s with ip := s.ip + 1 }) hi

theorem len_le_engineStep (s : State) : s.len ≤ (engineStep s).len := by
  unfold engineStep
  cases h : step s with
  | next t => exact len_le_of_step h
  | fault _ => exact Nat.le_refl _
  | refused _ => exact Nat.le_refl _

@[simp] theorem reportStep_len (s : State) : (reportStep s).1.len = s.len := by
  unfold reportStep
  split
  · rfl
  · split <;> rfl

theorem len_le_runLoop (n : Nat) (s : State) : s.len ≤ (runLoop n s).1.len := by
  induction n generalizing s with
  | zero =>
    unfold runLoop
    split <;> exact Nat.le_refl _
  | succ n ih =>
    unfold runLoop
    split
    · exact Nat.le_refl _
    · exact Nat.le_refl _
    · split
      · exact len_le_engineStep s
      · exact (len_le_engineStep s).trans (ih { engineStep s with iter := (engineStep s).iter + 1 })

theorem len_le_issue {c : Command} (hc : ∀ p, c ≠ .load p) (s : State) : s.len ≤ (issue c s).1.len := by
  unfold issue
  split
  · exact Nat.le_refl _
  · cases c with
    | load p => exact absurd rfl (hc p)
    | step => exact (len_le_engineStep s).trans (reportStep_len _).ge
    | run => exact len_le_runLoop _ { s with iter := 0 }
    | getIp | getHalted | snapshot | dump => exact Nat.le_refl _

theorem len_le_answer (x : InputAnswer) (s : State) : s.len ≤ (answer x s).1.len := by
  unfold answer
  split
  · exact Nat.le_refl _
  · have hstep : s.len ≤ _ := len_le_engineStep { s with input := s.input ++ [x] }
    generalize engineStep { s with input := s.input ++ [x] } = t at hstep ⊢
    dsimp only
    split
    · exact hstep.trans (len_le_runLoop _ { t with iter := t.iter + 1 })
    · exact hstep.trans (reportStep_len t).ge
    · exact hstep.trans (reportStep_len t).ge

theorem issue_snapshot_state (s : State) : (issue .snapshot s).1 = s := by
  unfold issue
  split <;> rfl

theorem issue_dump_state (s : State) (a b : Int) : (issue (.dump a b) s).1 = s := by
  unfold issue
  split <;> rfl

/-- Settles O41: a step's growth is that of its instruction's operands, and a command or an answer is made of steps. -/
theorem nothingShrinksTheTape : Obligations.NothingShrinksTheTape :=
  ⟨fun _ _ => len_le_of_step, fun _ s hc => len_le_issue hc s, len_le_answer, issue_snapshot_state, issue_dump_state⟩

end Sys2Proof.Machine
end

section
/-! The decoder's map over the opcode values, and the operand-cell fetch (spec/30_encoding.md). -/

namespace Sys2Proof

/-- The row of the map for every value that is no opcode (R71, R74). -/
theorem decodeWord_of_unknownOpcode {v : Int} (h : tmod v 100 ∉ [1, 2, 3, 4, 5, 6, 7, 8, 9, 99]) :
    decodeWord v = .error (.unknownOpcode (tmod v 100)) := by
  simp only [List.mem_cons, List.not_mem_nil, or_false, not_or] at h
  obtain ⟨h1, h2, h3, h4, h5, h6, h7, h8, h9, h99⟩ := h
  simp only [decodeWord, decodeFields_eq, h1, h2, h3, h4, h5, h6, h7, h8, h9, h99, if_false]

/-- Settles O4: each opcode value selects its row of the map, and a value outside the list fails every row's test. -/
theorem opcodeMapIsComplete : Obligations.OpcodeMapIsComplete := by
  intro v
  refine ⟨?add, ?mul, ?inp, ?out, ?jnz, ?jz, ?lt, ?eq, ?arb, ?halt, decodeWord_of_unknownOpcode⟩
  all_goals
    intro hop
    simp [decodeWord, decodeFields_eq, hop]

end Sys2Proof

namespace Sys2Proof.Machine

/-- Settles O27: the fetch's two cases, by whether `ip` is below MEM_LIMIT. -/
theorem operandCellFetchAdvancesIp : Obligations.OperandCellFetchAdvancesIp :=
  fun _ => ⟨fetchRaw_inBounds, fetchRaw_outOfBounds⟩

end Sys2Proof.Machine
end

section
/-! The host's queries GET_IP, GET_HALTED and SNAPSHOT (spec/60_exceptions.md R119, R126). -/

namespace Sys2Proof.Machine

/-! ## The replies while no request waits -/

theorem State.not_busy_of_pending_eq_none {s : State} (h : s.pending = none) : ¬ s.busy = true := by
  simp [State.busy, h]

theorem issue_getIp {s : State} (h : s.pending = none) : issue .getIp s = (s, .ip s.ip) :=
  if_neg (State.not_busy_of_pending_eq_none h)

theorem issue_getHalted {s : State} (h : s.pending = none) :
    issue .getHalted s = (s, .isHalted (decide (s.run = .halted))) :=
  if_neg (State.not_busy_of_pending_eq_none h)

theorem issue_snapshot {s : State} (h : s.pending = none) :
    issue .snapshot s = (s, .snapshot s.len (snapshotCells s)) :=
  if_neg (State.not_busy_of_pending_eq_none h)

@[simp] theorem snapshotCells_length (s : State) : (snapshotCells s).length = s.len := by
  simp [snapshotCells]

theorem snapshotCells_getElem? {s : State} {a : Nat} (h : a < s.len) : (snapshotCells s)[a]? = some (s.cell a) := by
  simp [snapshotCells, List.getElem?_range h]

/-! ## The states the queries meet -/

/-- From READY with no request waiting, a word in range that decodes is executed with `ip` past it (R68). -/
theorem step_eq_exec {s : State} {i : Instr} (hrun : s.run = .ready) (hp : s.pending = none)
    (hb : s.ip < s.cfg.memLimit) (hdec : decodeWord (s.cell s.ip) = .ok i) :
    step s = exec i { s with ip := s.ip + 1 } := by
  have hf : fetchInstr s = .run i { s with ip := s.ip + 1 } := by
    simp only [fetchInstr, fetchRaw_inBounds hb, hdec]
  simp only [step, hrun, hp, hf]

/-- HALT stops the engine and changes nothing else (R101). -/
theorem exec_halt (s : State) : exec .halt s = .next { s with run := .halted } := rfl

/-- A FAULTED engine waits for no input: a request waits only in READY. -/
theorem Inv.pending_eq_none_of_fault {s : State} {r : FaultRecord} (h : Inv s) (hr : s.fault = some r) :
    s.pending = none := by
  have hfaulted : s.run = .faulted := h.faultedIff.mpr (by simp [hr])
  cases hp : s.pending with
  | none => rfl
  | some p =>
    obtain ⟨hready, -⟩ := h.pendingReady p hp
    cases hfaulted.symm.trans hready

/-- Settles O46: HALT leaves `ip` one past its word and no request waiting, and in FAULTED the invariant fixes `ip` to the
record's. -/
theorem queriesReturnIpAndHalted : Obligations.QueriesReturnIpAndHalted := by
  refine ⟨fun s hp => ⟨issue_getIp hp, issue_getHalted hp⟩, fun s hrun hp hb hdec => ?_, fun s r hinv hr => ?_⟩
  · have hstep : step s = .next { s with ip := s.ip + 1, run := .halted } := by
      rw [step_eq_exec hrun hp hb hdec, exec_halt]
    exact ⟨_, hstep, issue_getIp hp, issue_getHalted hp⟩
  · rw [issue_getIp (hinv.pending_eq_none_of_fault hr), hinv.faultIp r hr]

/-- Settles O47: the reply's list is that of the cells `0 .. len - 1`. -/
theorem snapshotReturnsTheTape : Obligations.SnapshotReturnsTheTape :=
  fun s hp => ⟨snapshotCells s, issue_snapshot hp, snapshotCells_length s, fun _ => snapshotCells_getElem?⟩

end Sys2Proof.Machine
end

section
/-! The encoding (spec/30_encoding.md sections 1, 5 and 6): what the decoder reads back from a canonical word, and which
words and digits reach it. -/

namespace Sys2Proof

/-! ## The canonical word, digit by digit -/

/-- The mode digit of operand `k`, 0 when the opcode lacks that operand (R79). -/
def Instr.modeDigit (i : Instr) (k : Nat) : Nat := (i.operands[k]?).elim 0 fun o => o.2.digit

theorem Instr.wellFormed_iff (i : Instr) : i.wellFormed = true ↔ ∀ o ∈ i.operands, o.2.wellFormed = true := by
  cases i <;> simp [Instr.wellFormed, Instr.operands, and_assoc]

theorem Instr.modeDigit_le_nine {i : Instr} (h : i.wellFormed = true) (k : Nat) : i.modeDigit k ≤ 9 := by
  unfold Instr.modeDigit
  cases hk : i.operands[k]? with
  | none => exact Nat.zero_le 9
  | some o => exact Mode.digit_le_nine (i.wellFormed_iff.mp h o (List.mem_of_getElem? hk))

/-- The formula of R60 with the digits of R79. -/
theorem encode_eq (i : Instr) :
    encode i = i.opcode + 100 * i.modeDigit 0 + 1000 * i.modeDigit 1 + 10000 * i.modeDigit 2 := by
  cases i <;> simp [encode, Instr.opcode, Instr.modeDigit, Instr.operands]

theorem Instr.opcode_le (i : Instr) : i.opcode ≤ 99 := by
  cases i <;> simp [Instr.opcode]

theorem decodeFields_encode {i : Instr} (h : i.wellFormed = true) :
    decodeFields (encode i) =
      { opcode := i.opcode, m0 := i.modeDigit 0, m1 := i.modeDigit 1, m2 := i.modeDigit 2 } := by
  have h0 := i.modeDigit_le_nine h 0
  have h1 := i.modeDigit_le_nine h 1
  have h2 := i.modeDigit_le_nine h 2
  have hop := i.opcode_le
  rw [encode_eq, decodeFields_of_nonneg (by omega), Fields.mk.injEq]
  omega

/-- Settles O1: the fields of the canonical word are the opcode and the mode digits, and a well-formed mode is the mode
its digit names. -/
theorem decodeOfEncode : Obligations.DecodeOfEncode := by
  intro i h
  have hmodes := i.wellFormed_iff.mp h
  simp only [decodeWord, decodeFields_encode h]
  cases i
  all_goals
    simp_all [Instr.operands, Instr.opcode, Instr.modeDigit, modeOfDigit_digit]

/-! ## Any word -/

/-- Settles O2: the fields of a non-negative word are those of its remainder by 100000. -/
theorem decodeIgnoresDigitsAboveModes : Obligations.DecodeIgnoresDigitsAboveModes := by
  intro v w hv hw hvw
  have hfields : decodeFields v = decodeFields w := by
    rw [decodeFields_of_nonneg hv, decodeFields_of_nonneg hw, Fields.mk.injEq]
    omega
  simp only [decodeWord, hfields]

/-- Settles O3: the opcode of a negative word is not positive, so it is in no row of the map. -/
theorem negativeWordIsNoInstruction : Obligations.NegativeWordIsNoInstruction := by
  intro v hv
  obtain ⟨hlow, hhigh⟩ := tmod_of_neg hv
  refine ⟨decodeWord_of_unknownOpcode ?_, hlow, hhigh⟩
  simp only [List.mem_cons, List.not_mem_nil, or_false]
  omega

theorem nonneg_of_decodeWord_ok {v : Int} {i : Instr} (h : decodeWord v = .ok i) : 0 ≤ v := by
  by_contra hv
  obtain ⟨herr, -⟩ := negativeWordIsNoInstruction v (by omega)
  rw [herr] at h
  cases h

/-- Settles O5: a word that decodes is not negative, so its fields are decimal digits, and each row of the map gives an
instruction of the row's opcode. -/
theorem decodedInstructionIsWellFormed : Obligations.DecodedInstructionIsWellFormed := by
  intro v i h
  have hv := nonneg_of_decodeWord_ok h
  have hdigit (x : Int) : (modeOfDigit (x % 10)).wellFormed = true :=
    wellFormed_modeOfDigit (by omega) (by omega)
  simp only [decodeWord, decodeFields_of_nonneg hv] at h
  rw [tmod_of_nonneg hv]
  split_ifs at h <;> cases h
  all_goals
    simp [Instr.wellFormed, Instr.opcode, *]

/-- Settles O6: each listed word, through the map. -/
theorem decodingOfListedWords : Obligations.DecodingOfListedWords :=
  ⟨rfl, rfl, rfl, rfl, rfl, rfl, rfl, rfl, rfl, rfl, rfl, rfl⟩

end Sys2Proof
end

section
/-! The invariant over an instruction and a step (spec/10_state.md sections 1 to 7). Up to its last write an instruction is
`Running`; its end keeps the invariant. -/

namespace Sys2Proof.Machine

/-! ## What an instruction may come to -/

/-- The end of an instruction: a state with the invariant, or a raise from a running state. -/
def Res.EndsInv : Res Unit → Prop
  | .ok _ t => Inv t
  | .raise _ t => Running t

theorem Res.Sound.endsInv {P : Unit → State → Prop} {r : Res Unit} (h : r.Sound P) : r.EndsInv := by
  cases r with
  | ok v t => exact h.1.1
  | raise f t => exact h

theorem Res.Sound.andThen_endsInv {α : Type} {P : α → State → Prop} {r : Res α} {k : α → State → Res Unit}
    (h : r.Sound P) (hk : ∀ v t, Running t → P v t → (k v t).EndsInv) : (r.andThen k).EndsInv := by
  cases r with
  | ok v t => exact hk v t h.1 h.2
  | raise f t => exact h

theorem Res.EndsInv.inv {A : Nat} {r : Res Unit} {t : State} (h : r.EndsInv) (ht : conclude A r = .next t) : Inv t := by
  cases r with
  | ok v u =>
    cases ht
    exact h
  | raise f u =>
    cases ht
    exact inv_raiseFault h A f

/-! ## The registers and the streams -/

theorem Running.fault_eq_none {s : State} (h : Running s) : s.fault = none := by
  obtain ⟨hinv, hrun, -⟩ := h
  by_contra hf
  cases hrun.symm.trans (hinv.faultedIff.mpr hf)

theorem Running.setIp {s : State} (h : Running s) {a : Nat} (ha : a ≤ 2 ^ (s.cfg.wordWidth - 1)) :
    Running { s with ip := a } :=
  ⟨{ h.1 with ipBound := ha, faultIp := by simp [h.fault_eq_none] }, h.2⟩

theorem Running.setRb {s : State} (h : Running s) {b : Int} (hb : fitsW s.cfg.wordWidth b) :
    Running { s with rb := b } :=
  ⟨{ h.1 with rbWord := hb }, h.2⟩

theorem Running.halt {s : State} (h : Running s) : Inv { s with run := .halted } :=
  { h.1 with
    faultedIff := by simp [h.fault_eq_none]
    pendingReady := by simp [h.2.2] }

theorem Running.issueRequest {s : State} (h : Running s) : Running (issueRequest s) :=
  ⟨{ h.1 with }, h.2⟩

theorem Running.outputWrite {s : State} (h : Running s) {v : Int} (hv : fitsW s.cfg.wordWidth v) :
    Running (outputWrite v s) := by
  refine ⟨{ h.1 with outputWords := fun w hw => ?_ }, h.2⟩
  rcases List.mem_append.mp hw with hw | hw
  · exact h.1.outputWords w hw
  · rw [List.mem_singleton.mp hw]
    exact hv

/-- An answer taken from the queue, with no request waiting any more. -/
theorem running_takeAnswer {s : State} (h : Inv s) (hrun : s.run = .ready) {x : InputAnswer} {rest : List InputAnswer}
    (hin : s.input = x :: rest) : Running { s with input := rest, pending := none } := by
  refine ⟨{ h with inputWords := fun v hv => ?_, pendingReady := by simp }, hrun, rfl⟩
  exact h.inputWords v (by rw [hin]; exact List.mem_cons_of_mem x hv)

/-- The rest of an IN whose destination is allocated. -/
theorem endsInv_receiveInput {s : State} (h : Inv s) (hrun : s.run = .ready) (A : Nat) {d : Nat} (hd : d < s.len) :
    (receiveInput A d s).EndsInv := by
  rcases receiveInput_cases A d s with ⟨-, hr⟩ | ⟨v, rest, hin, hr⟩ | ⟨rest, hin, hr⟩ <;> rw [hr]
  · exact { h with pendingReady := by rintro p ⟨⟩; exact ⟨hrun, hd⟩ }
  · exact inv_memWrite (running_takeAnswer h hrun hin).1 hd (h.inputWords v (by simp [hin]))
  · exact running_takeAnswer h hrun hin

/-- A jump to a word that is not negative stays within `0 .. 2^(W-1)` (R23). -/
theorem sound_jumpIf {s : State} (h : Running s) (taken : Bool) {target : Int} (ht : fitsW s.cfg.wordWidth target) :
    (jumpIf taken target s).Sound fun _ _ => True := by
  rcases jumpIf_cases taken target s with ⟨-, hj⟩ | ⟨-, hnonneg, hj⟩ | ⟨-, -, hj⟩ <;> rw [hj]
  · exact ⟨h, trivial⟩
  · refine ⟨h.setIp ?_, trivial⟩
    have htop : target ≤ 2 ^ (s.cfg.wordWidth - 1) := by
      obtain ⟨-, hle⟩ := ht
      omega
    exact Int.toNat_le.mpr (by exact_mod_cast htop)
  · exact h

/-! ## Instructions and steps -/

theorem sound_conditionalJump {s : State} (h : Running s) (test : Int → Bool) (m0 m1 : Mode) :
    (conditionalJump test m0 m1 s).Sound fun _ _ => True := by
  refine (sound_fetchValue h 0 m0).andThen fun a s1 h1 _ => ?_
  exact (sound_fetchValue h1 1 m1).andThen fun target s2 h2 ht => sound_jumpIf h2 (test a) ht.1

/-- A comparison keeps the state and gives 0 or 1. -/
theorem sound_boolWord {s : State} (h : Running s) (b : Bool) :
    (Res.ok (boolWord b) s).Sound fun v u => fitsW u.cfg.wordWidth v ∧ u = s :=
  ⟨h, fitsW_boolWord h.1.cfgValid.1 b, rfl⟩

theorem endsInv_instrBody {s : State} (h : Running s) (i : Instr) (A : Nat) : (instrBody i A s).EndsInv := by
  cases i with
  | add m0 m1 m2 => exact (sound_binaryOp h _ m0 m1 m2 fun _ _ _ ht => sound_arith ht _ _).endsInv
  | mul m0 m1 m2 => exact (sound_binaryOp h _ m0 m1 m2 fun _ _ _ ht => sound_arith ht _ _).endsInv
  | lt m0 m1 m2 => exact (sound_binaryOp h _ m0 m1 m2 fun _ _ _ ht => sound_boolWord ht _).endsInv
  | eq m0 m1 m2 => exact (sound_binaryOp h _ m0 m1 m2 fun _ _ _ ht => sound_boolWord ht _).endsInv
  | jnz m0 m1 => exact (sound_conditionalJump h _ m0 m1).endsInv
  | jz m0 m1 => exact (sound_conditionalJump h _ m0 m1).endsInv
  | inp m0 =>
    refine (sound_fetchAddress h 0 m0).andThen_endsInv fun d t ht hd => ?_
    exact endsInv_receiveInput ht.issueRequest.1 ht.2.1 A hd.1
  | out m0 => exact (sound_fetchValue h 0 m0).andThen_endsInv fun v t ht hv => (ht.outputWrite hv.1).1
  | arb m0 =>
    refine (sound_fetchValue h 0 m0).andThen_endsInv fun a t ht _ => ?_
    exact (sound_arith ht 9 (t.rb + a)).andThen_endsInv fun r u hu hr => (hu.setRb hr.1).1
  | halt => exact h.halt

theorem inv_exec {i : Instr} {s t : State} (h : Running s) (ht : exec i s = .next t) : Inv t := by
  rw [exec_eq_conclude] at ht
  exact (endsInv_instrBody h i _).inv ht

/-- The front of a step: it runs an instruction in a running state, or fault entry ends it. -/
theorem fetchInstr_keepsInv {s : State} (h : Running s) :
    (∀ i t, fetchInstr s = .run i t → Running t) ∧ ∀ t, fetchInstr s = .stop t → Inv t := by
  have hraw := sound_fetchRaw h
  unfold fetchInstr
  generalize fetchRaw s = r at hraw
  cases r with
  | raise f t => simpa using inv_raiseFault hraw s.ip f
  | ok v t =>
    dsimp only
    split
    · simpa using hraw.1
    · simpa using inv_raiseFault hraw.1 s.ip _

/-- Settles O30, by what a step is: nothing in HALTED, the rest of a waiting IN, or an opcode fetch and an instruction. -/
theorem stepKeepsInvariant : Obligations.StepKeepsInvariant := by
  intro s t h hstep
  unfold step at hstep
  split at hstep
  case h_1 =>
    cases hstep
    exact h
  case h_2 => cases hstep
  case h_3 hrun =>
    split at hstep
    case h_1 p hp =>
      obtain ⟨-, hd⟩ := h.pendingReady p hp
      exact (endsInv_receiveInput h hrun p.instrAddr hd).inv hstep
    case h_2 hp =>
      obtain ⟨hrunning, hstop⟩ := fetchInstr_keepsInv ⟨h, hrun, hp⟩
      split at hstep
      case h_1 _ i u hf => exact inv_exec (hrunning i u hf) hstep
      case h_2 _ u hf =>
        cases hstep
        exact hstop _ hf

theorem inv_engineStep {s : State} (h : Inv s) : Inv (engineStep s) := by
  unfold engineStep
  split
  · exact stepKeepsInvariant s _ h ‹_›
  · exact h
  · exact h

/-! ## LOAD -/

/-- LOAD of a program that fits gives the invariant from what LOAD leaves alone (R130). -/
theorem inv_loadProgram {s : State} {p : List Int} (hcfg : s.cfg.Valid)
    (hin : ∀ v, InputAnswer.word v ∈ s.input → fitsW s.cfg.wordWidth v)
    (hout : ∀ v ∈ s.output, fitsW s.cfg.wordWidth v) (hp : s.pending = none)
    (hcmd : s.command = some .run → 0 < s.cfg.runCap) (hl : Loadable p s) : Inv (loadProgram p s) where
  cfgValid := hcfg
  tapeWf := tapeOfProgram_wf p 0
  tapeBelowLen := fun c hc => by
    obtain ⟨-, hlt, -⟩ := tapeOfProgram_mem hc
    rwa [Nat.zero_add] at hlt
  tapeWords := fun c hc => by
    obtain ⟨-, -, hmem, -⟩ := tapeOfProgram_mem hc
    exact hl.2 _ hmem
  lenBound := hl.1
  ipBound := Nat.zero_le _
  rbWord := fitsW_zero _
  faultedIff := by simp
  faultIp := by simp
  inputWords := hin
  outputWords := hout
  pendingReady := by simp [hp]
  iterBound := Nat.zero_le _
  runHasStepLeft := hcmd

/-- Settles O31: reset is LOAD of the empty program. -/
theorem resetHasInvariant : Obligations.ResetHasInvariant :=
  inv_loadProgram (s := State.reset) (p := []) (by decide) (by simp [State.reset]) (by simp [State.reset]) rfl
    (by simp [State.reset]) (by decide)

end Sys2Proof.Machine
end

section
/-! What a step is, by `run`, the pending request and the front of the step (spec/30_encoding.md R68, spec/60_exceptions.md
R113, R118), and the step as the host's commands take it. -/

namespace Sys2Proof.Machine

/-! ## The branches of a step -/

theorem step_of_halted {s : State} (hrun : s.run = .halted) : step s = .next s := by
  simp only [step, hrun, haltedStep]

theorem step_of_faulted {s : State} (hrun : s.run = .faulted) : step s = .fault (.stopped s.fault) := by
  simp only [step, hrun, faultedStep]

theorem step_of_pending {s : State} {p : PendingInput} (hrun : s.run = .ready) (hp : s.pending = some p) :
    step s = resumeInp p s := by
  simp only [step, hrun, hp]

theorem step_of_fetch_run {s u : State} {i : Instr} (hrun : s.run = .ready) (hp : s.pending = none)
    (hf : fetchInstr s = .run i u) : step s = exec i u := by
  simp only [step, hrun, hp, hf]

theorem step_of_fetch_stop {s u : State} (hrun : s.run = .ready) (hp : s.pending = none)
    (hf : fetchInstr s = .stop u) : step s = .next u := by
  simp only [step, hrun, hp, hf]

theorem exec_next (i : Instr) (s : State) : ∃ t, exec i s = .next t := by
  rw [exec_eq_conclude]
  exact conclude_next _ _

/-- The branch a state is in. -/
theorem step_branches (s : State) :
    s.run = .halted ∨ s.run = .faulted ∨ (s.run = .ready ∧ ∃ p, s.pending = some p) ∨
    (s.run = .ready ∧ s.pending = none ∧ ((∃ i u, fetchInstr s = .run i u) ∨ ∃ u, fetchInstr s = .stop u)) := by
  have hfront : (∃ i u, fetchInstr s = .run i u) ∨ ∃ u, fetchInstr s = .stop u := by
    cases fetchInstr s <;> simp
  have hpending : (∃ p, s.pending = some p) ∨ s.pending = none := by
    cases s.pending <;> simp
  cases hrun : s.run with
  | halted => exact Or.inl rfl
  | faulted => exact Or.inr (Or.inl rfl)
  | ready => exact Or.inr (Or.inr (hpending.imp (⟨rfl, ·⟩) (⟨rfl, ·, hfront⟩)))

/-- Only in FAULTED is no step taken. -/
theorem step_next {s : State} (h : s.run ≠ .faulted) : ∃ t, step s = .next t := by
  rcases step_branches s with hrun | hrun | ⟨hrun, p, hp⟩ | ⟨hrun, hp, ⟨i, u, hf⟩ | ⟨u, hf⟩⟩
  · exact ⟨s, step_of_halted hrun⟩
  · exact absurd hrun h
  · rw [step_of_pending hrun hp]
    exact conclude_next _ _
  · rw [step_of_fetch_run hrun hp hf]
    exact exec_next i u
  · exact ⟨u, step_of_fetch_stop hrun hp hf⟩

theorem engineStep_of_step {s t : State} (h : step s = .next t) : engineStep s = t := by
  simp only [engineStep, h]

theorem engineStep_of_faulted {s : State} (hrun : s.run = .faulted) : engineStep s = s := by
  simp only [engineStep, step_of_faulted hrun]

/-- A step of a command answers, or the machine is FAULTED and stays as it is. -/
theorem engineStep_cases (s : State) :
    step s = .next (engineStep s) ∨ (s.run = .faulted ∧ engineStep s = s) := by
  by_cases hrun : s.run = .faulted
  · exact Or.inr ⟨hrun, engineStep_of_faulted hrun⟩
  · obtain ⟨t, ht⟩ := step_next hrun
    exact Or.inl (engineStep_of_step ht ▸ ht)

/-! ## The statements about the step -/

/-- Settles O7: the opcode fetch in range gives the cell and advances `ip`. -/
theorem stepRunsDecodedInstruction : Obligations.StepRunsDecodedInstruction :=
  fun _ _ => step_eq_exec

/-- Settles O8: both faults end the front of the step, the one before `ip` advances and the other after. -/
theorem stepTakesFetchAndOpcodeFaults : Obligations.StepTakesFetchAndOpcodeFaults := by
  intro s hrun hp
  refine ⟨fun hb op hdec => step_of_fetch_stop hrun hp ?_, fun hb => step_of_fetch_stop hrun hp ?_⟩
  · simp only [fetchInstr, fetchRaw_inBounds hb, hdec]
    rfl
  · simp only [fetchInstr, fetchRaw_outOfBounds hb]
    rfl

/-- Settles O9: the two stop states are branches of their own. -/
theorem stopStatesTakeNoStep : Obligations.StopStatesTakeNoStep :=
  fun _ => ⟨step_of_halted, step_of_faulted⟩

/-- Settles O10: an instruction's operation answers or raises, and either way its end is a next state. -/
theorem everyInstructionAnswersNextState : Obligations.EveryInstructionAnswersNextState :=
  exec_next

end Sys2Proof.Machine
end

section
/-! The run controller has no part in a step (spec/60_exceptions.md R118, R120): a step from a state with another `iter`
and another command in progress does the same to the rest. -/

namespace Sys2Proof.Machine

/-- The same answer or raise, in a state with another controller. -/
def Res.withController {α : Type} (n : Nat) (c : Option RunningCommand) : Res α → Res α
  | .ok v t => .ok v { t with iter := n, command := c }
  | .raise f t => .raise f { t with iter := n, command := c }

/-- The operation does the same whatever the controller holds, and carries that along. -/
def ControllerBlind {α : Type} (f : State → Res α) : Prop :=
  ∀ s n c, f { s with iter := n, command := c } = (f s).withController n c

theorem ControllerBlind.andThen {α β : Type} {f : State → Res α} {k : α → State → Res β} (hf : ControllerBlind f)
    (hk : ∀ v, ControllerBlind (k v)) : ControllerBlind fun s => (f s).andThen k := by
  intro s n c
  simp only [hf s n c]
  cases f s with
  | ok v t => exact hk v t n c
  | raise i t => rfl

theorem conclude_withController (A : Nat) {r : Res Unit} {t : State} (h : conclude A r = .next t) (n : Nat)
    (c : Option RunningCommand) : conclude A (r.withController n c) = .next { t with iter := n, command := c } := by
  cases r <;> cases h <;> rfl

/-! ## The shared operations -/

theorem controllerBlind_ok {α : Type} (v : α) : ControllerBlind (Res.ok v) := fun _ _ _ => rfl

theorem controllerBlind_raise {α : Type} (f : FaultInfo) : ControllerBlind (Res.raise f : State → Res α) :=
  fun _ _ _ => rfl

theorem controllerBlind_fetchRaw : ControllerBlind fetchRaw := by
  intro s n c
  by_cases h : s.ip < s.cfg.memLimit
  · rw [fetchRaw_inBounds h, fetchRaw_inBounds (s := { s with iter := n, command := c }) h]
    rfl
  · rw [fetchRaw_outOfBounds h, fetchRaw_outOfBounds (s := { s with iter := n, command := c }) h]
    rfl

theorem controllerBlind_memRead (a : Int) : ControllerBlind (memRead a) := by
  intro s n c
  unfold memRead
  dsimp only [InBounds]
  split
  · split
    · rfl
    · split <;> rfl
  · rfl

theorem controllerBlind_resolveWrite (a : Int) : ControllerBlind (resolveWrite a) := by
  intro s n c
  unfold resolveWrite
  dsimp only [InBounds]
  split
  · split <;> rfl
  · rfl

theorem controllerBlind_arith (op : Nat) (r : Int) : ControllerBlind (arith op r) := by
  intro s n c
  unfold arith
  dsimp only [fitsW]
  split
  · rfl
  · split <;> rfl

theorem controllerBlind_jumpIf (taken : Bool) (t : Int) : ControllerBlind (jumpIf taken t) := by
  intro s n c
  unfold jumpIf
  split
  · split <;> rfl
  · rfl

theorem controllerBlind_receiveInput (A d : Nat) : ControllerBlind (receiveInput A d) := by
  intro s n c
  simp only [receiveInput]
  split <;> rfl

/-! ## The operand resolver -/

theorem controllerBlind_fetchValue (k : Nat) (m : Mode) : ControllerBlind (fetchValue k m) := by
  refine controllerBlind_fetchRaw.andThen fun raw => ?_
  cases m with
  | position => exact controllerBlind_memRead raw
  | immediate => exact controllerBlind_ok raw
  | relative => exact fun s => controllerBlind_memRead (raw + s.rb) s
  | invalid d => exact controllerBlind_raise _

theorem controllerBlind_fetchAddress (k : Nat) (m : Mode) : ControllerBlind (fetchAddress k m) := by
  refine controllerBlind_fetchRaw.andThen fun raw => ?_
  cases m with
  | position => exact controllerBlind_resolveWrite raw
  | immediate => exact controllerBlind_raise _
  | relative => exact fun s => controllerBlind_resolveWrite (raw + s.rb) s
  | invalid d => exact controllerBlind_raise _

/-! ## Instructions and steps -/

theorem controllerBlind_binaryOp {compute : Int → Int → State → Res Int} (hc : ∀ a b, ControllerBlind (compute a b))
    (m0 m1 m2 : Mode) : ControllerBlind (binaryOp compute m0 m1 m2) :=
  (controllerBlind_fetchValue 0 m0).andThen fun a => (controllerBlind_fetchValue 1 m1).andThen fun b =>
    (controllerBlind_fetchAddress 2 m2).andThen fun _ => (hc a b).andThen fun _ _ _ _ => rfl

theorem controllerBlind_conditionalJump (test : Int → Bool) (m0 m1 : Mode) :
    ControllerBlind (conditionalJump test m0 m1) :=
  (controllerBlind_fetchValue 0 m0).andThen fun a => (controllerBlind_fetchValue 1 m1).andThen fun t =>
    controllerBlind_jumpIf (test a) t

theorem controllerBlind_instrBody (i : Instr) (A : Nat) : ControllerBlind (instrBody i A) := by
  cases i with
  | add m0 m1 m2 => exact controllerBlind_binaryOp (fun _ _ => controllerBlind_arith _ _) m0 m1 m2
  | mul m0 m1 m2 => exact controllerBlind_binaryOp (fun _ _ => controllerBlind_arith _ _) m0 m1 m2
  | lt m0 m1 m2 => exact controllerBlind_binaryOp (fun _ _ => controllerBlind_ok _) m0 m1 m2
  | eq m0 m1 m2 => exact controllerBlind_binaryOp (fun _ _ => controllerBlind_ok _) m0 m1 m2
  | jnz m0 m1 => exact controllerBlind_conditionalJump _ m0 m1
  | jz m0 m1 => exact controllerBlind_conditionalJump _ m0 m1
  | inp m0 =>
    exact (controllerBlind_fetchAddress 0 m0).andThen fun d s n c =>
      controllerBlind_receiveInput A d (issueRequest s) n c
  | out m0 => exact (controllerBlind_fetchValue 0 m0).andThen fun _ _ _ _ => rfl
  | arb m0 =>
    refine (controllerBlind_fetchValue 0 m0).andThen fun a s n c => ?_
    exact (controllerBlind_arith 9 (s.rb + a)).andThen (k := fun r u => .ok () { u with rb := r }) (fun _ _ _ _ => rfl) s n c
  | halt => exact fun _ _ _ => rfl

theorem exec_withController {i : Instr} {s t : State} (h : exec i s = .next t) (n : Nat) (c : Option RunningCommand) :
    exec i { s with iter := n, command := c } = .next { t with iter := n, command := c } := by
  rw [exec_eq_conclude] at h ⊢
  rw [controllerBlind_instrBody]
  exact conclude_withController _ h n c

theorem resumeInp_withController {p : PendingInput} {s t : State} (h : resumeInp p s = .next t) (n : Nat)
    (c : Option RunningCommand) : resumeInp p { s with iter := n, command := c } = .next { t with iter := n, command := c } := by
  unfold resumeInp at h ⊢
  rw [controllerBlind_receiveInput]
  exact conclude_withController _ h n c

/-- The front of a step, in a state with another controller. -/
def Fetched.withController (n : Nat) (c : Option RunningCommand) : Fetched → Fetched
  | .run i t => .run i { t with iter := n, command := c }
  | .stop t => .stop { t with iter := n, command := c }

theorem fetchInstr_withController (s : State) (n : Nat) (c : Option RunningCommand) :
    fetchInstr { s with iter := n, command := c } = (fetchInstr s).withController n c := by
  unfold fetchInstr
  rw [controllerBlind_fetchRaw]
  cases fetchRaw s with
  | raise f t => rfl
  | ok v t =>
    simp only [Res.withController]
    split <;> rfl

theorem step_withController {s t : State} (h : step s = .next t) (n : Nat) (c : Option RunningCommand) :
    step { s with iter := n, command := c } = .next { t with iter := n, command := c } := by
  have hfront := fetchInstr_withController s n c
  rcases step_branches s with hrun | hrun | ⟨hrun, p, hp⟩ | ⟨hrun, hp, ⟨i, u, hf⟩ | ⟨u, hf⟩⟩
  · rw [step_of_halted hrun] at h
    cases h
    exact step_of_halted hrun
  · rw [step_of_faulted hrun] at h
    cases h
  · rw [step_of_pending hrun hp] at h
    rw [step_of_pending (s := { s with iter := n, command := c }) hrun hp]
    exact resumeInp_withController h n c
  · rw [hf] at hfront
    rw [step_of_fetch_run hrun hp hf] at h
    rw [step_of_fetch_run (s := { s with iter := n, command := c }) hrun hp hfront]
    exact exec_withController h n c
  · rw [hf] at hfront
    rw [step_of_fetch_stop hrun hp hf] at h
    cases h
    exact step_of_fetch_stop (s := { s with iter := n, command := c }) hrun hp hfront

theorem InstrEnd.cfg_eq {A : Nat} {s u t : State} {i : Instr} {r : Res Unit} (h : InstrEnd A s u i r)
    (ht : conclude A r = .next t) : t.cfg = u.cfg := by
  cases h <;> cases ht <;> rfl

/-- No instruction changes the configuration (spec/10_state.md R30). -/
theorem cfg_eq_of_exec {i : Instr} {s t : State} (h : exec i s = .next t) : t.cfg = s.cfg := by
  rcases exec_cases h with ⟨f, ip, n, -, ht, -⟩ | ⟨n, u, r, -, hu, hend, hr⟩
  · rw [ht]
  · rw [hend.cfg_eq hr, hu.cfg]

theorem cfg_eq_of_step {s t : State} (h : step s = .next t) : t.cfg = s.cfg := by
  rcases step_cases h with ⟨-, rfl⟩ | ⟨-, p, -, hp⟩ | ⟨-, -, ⟨f, ip, rfl⟩ | ⟨i, hi⟩⟩
  · rfl
  · unfold resumeInp at hp
    rcases receiveInput_cases p.instrAddr p.dest s with ⟨-, hr⟩ | ⟨v, rest, -, hr⟩ | ⟨rest, -, hr⟩ <;> rw [hr] at hp <;>
      cases hp <;> rfl
  · rfl
  · exact cfg_eq_of_exec (s := { s with ip := s.ip + 1 }) hi

/-- A step keeps the controller: with the controller the state has, the step is the same step. -/
theorem controller_eq_of_step {s t : State} (h : step s = .next t) : t.iter = s.iter ∧ t.command = s.command := by
  have hsame := h.symm.trans (step_withController h s.iter s.command)
  rw [Host.Outcome.next.injEq] at hsame
  rw [hsame]
  exact ⟨rfl, rfl⟩

/-- Settles O40: every operation of a step is blind to the controller and carries it along. -/
theorem stepIgnoresRunController : Obligations.StepIgnoresRunController := by
  intro s t h
  obtain ⟨hiter, hcommand⟩ := controller_eq_of_step h
  exact ⟨cfg_eq_of_step h, hiter, hcommand, step_withController h⟩

/-! ## The step of a command -/

theorem engineStep_withController (s : State) (n : Nat) (c : Option RunningCommand) :
    engineStep { s with iter := n, command := c } = { engineStep s with iter := n, command := c } := by
  rcases engineStep_cases s with h | ⟨hrun, h⟩
  · exact engineStep_of_step (step_withController h n c)
  · rw [h]
    exact engineStep_of_faulted (s := { s with iter := n, command := c }) hrun

@[simp] theorem engineStep_cfg (s : State) : (engineStep s).cfg = s.cfg := by
  rcases engineStep_cases s with h | ⟨-, h⟩
  · exact cfg_eq_of_step h
  · rw [h]

theorem controller_engineStep (s : State) :
    (engineStep s).iter = s.iter ∧ (engineStep s).command = s.command := by
  rcases engineStep_cases s with h | ⟨-, h⟩
  · exact controller_eq_of_step h
  · rw [h]
    exact ⟨rfl, rfl⟩

end Sys2Proof.Machine
end

section
/-! The host's commands and answers (spec/10_state.md R32, spec/60_exceptions.md sections 3 to 5, spec/41_io.md R94): what
each comes to, and the loop of RUN as steps of the engine. -/

namespace Sys2Proof.Machine

/-! ## The step that finishes a waiting IN -/

/-- Without an answer the request waits on (R94). -/
theorem step_of_pending_without_answer {s : State} {p : PendingInput} (hrun : s.run = .ready)
    (hp : s.pending = some p) (hin : s.input = []) : step s = .next s := by
  rw [step_of_pending hrun hp, resumeInp, receiveInput, hin, conclude_ok]
  change Host.Outcome.next { s with input := [], pending := some p } = .next s
  rw [← hin, ← hp]

/-- A word is stored in the destination (R93). -/
theorem step_of_pending_word {s : State} {p : PendingInput} (hrun : s.run = .ready) (hp : s.pending = some p)
    {v : Int} {rest : List InputAnswer} (hin : s.input = .word v :: rest) :
    step s = .next (memWrite p.dest v { s with input := rest, pending := none }) := by
  rw [step_of_pending hrun hp, resumeInp, receiveInput, hin, conclude_ok]

/-- END raises INPUT_UNAVAILABLE (R95). -/
theorem step_of_pending_endOfInput {s : State} {p : PendingInput} (hrun : s.run = .ready) (hp : s.pending = some p)
    {rest : List InputAnswer} (hin : s.input = .endOfInput :: rest) :
    step s = .next (raiseFault p.instrAddr .inputUnavailable { s with input := rest, pending := none }) := by
  rw [step_of_pending hrun hp, resumeInp, receiveInput, hin, conclude_raise]

/-- With an answer there, the request is over. -/
theorem pending_engineStep_of_answer {s : State} {p : PendingInput} (hrun : s.run = .ready) (hp : s.pending = some p)
    (hin : s.input ≠ []) : (engineStep s).pending = none := by
  cases hx : s.input with
  | nil => exact absurd hx hin
  | cons x rest =>
    cases x with
    | word v => rw [engineStep_of_step (step_of_pending_word hrun hp hx), memWrite_pending]
    | endOfInput => rw [engineStep_of_step (step_of_pending_endOfInput hrun hp hx), raiseFault_pending]

/-- A store below `len` as a statement about all cells. -/
theorem storesAt_memWrite {s : State} {d : Nat} (hd : d < s.len) (v : Int) : StoresAt s (memWrite d v s) d v :=
  ⟨by simp [cell_memWrite hd], fun a ha => by simp [cell_memWrite hd, ha]⟩

/-- Settles O17, by the three states of the queue of answers. -/
theorem waitingInputStepsToItsAnswer : Obligations.WaitingInputStepsToItsAnswer := by
  intro s p hrun hp hd
  refine ⟨step_of_pending_without_answer hrun hp, fun v rest hin => ?_, fun rest hin => ?_⟩
  · exact ⟨_, step_of_pending_word hrun hp hin, rfl, storesAt_memWrite (s := { s with input := rest, pending := none }) hd v⟩
  · exact step_of_pending_endOfInput hrun hp hin

/-! ## The commands while no request waits, and while one does -/

theorem issue_of_pending {c : Command} {s : State} (h : s.pending ≠ none) : issue c s = (s, .notAccepted) :=
  if_pos (Option.isSome_iff_ne_none.mpr h)

theorem issue_step {s : State} (h : s.pending = none) : issue .step s = reportStep (engineStep s) :=
  if_neg (State.not_busy_of_pending_eq_none h)

theorem issue_run {s : State} (h : s.pending = none) : issue .run s = runLoop s.cfg.runCap { s with iter := 0 } :=
  if_neg (State.not_busy_of_pending_eq_none h)

theorem issue_dump {s : State} (a b : Int) (h : s.pending = none) : issue (.dump a b) s = (s, .dump (dumpCells a b s)) :=
  if_neg (State.not_busy_of_pending_eq_none h)

theorem issue_load {s : State} (p : List Int) (h : s.pending = none) :
    issue (.load p) s = if Loadable p s then (loadProgram p s, .loaded) else (s, .loadRefused) :=
  if_neg (State.not_busy_of_pending_eq_none h)

theorem answer_of_not_pending {x : InputAnswer} {s : State} (h : s.pending = none) : answer x s = (s, .notAccepted) := by
  simp only [answer, h]

/-- The answer to the IN of a STEP, or of a request no command left. -/
theorem answer_of_step {x : InputAnswer} {s : State} (hp : s.pending ≠ none) (hc : s.command ≠ some .run) :
    answer x s = reportStep (engineStep { s with input := s.input ++ [x] }) := by
  unfold answer
  split
  · exact absurd ‹_› hp
  · dsimp only
    split
    · exact absurd ‹_› hc
    · rfl
    · rfl

/-- The answer to the IN of a RUN: the finished step counts, and the loop goes on (R121, R123). -/
theorem answer_of_run {x : InputAnswer} {s u : State} (hp : s.pending ≠ none) (hc : s.command = some .run)
    (hu : engineStep { s with input := s.input ++ [x] } = u) :
    answer x s = runLoop (s.cfg.runCap - (s.iter + 1)) { u with iter := s.iter + 1 } := by
  obtain ⟨p, hp⟩ := Option.ne_none_iff_exists'.mp hp
  have hcfg : u.cfg = s.cfg := by rw [← hu, engineStep_cfg]
  have hiter : u.iter = s.iter := by
    rw [← hu]
    exact (controller_engineStep _).1
  simp only [answer, hp, hc]
  rw [hp, hc] at hu
  rw [hu, hcfg, hiter]

/-! ## STEP's report -/

theorem reportStep_of_pending {s : State} (h : s.pending ≠ none) :
    reportStep s = ({ s with command := some .step }, .waiting) :=
  if_pos (Option.isSome_iff_ne_none.mpr h)

theorem reportStep_of_ready {s : State} (h : s.pending = none) (hrun : s.run = .ready) :
    reportStep s = ({ s with command := none }, .ok) := by
  simp [reportStep, h, hrun]

theorem reportStep_of_halted {s : State} (h : s.pending = none) (hrun : s.run = .halted) :
    reportStep s = ({ s with command := none }, .halted) := by
  simp [reportStep, h, hrun]

theorem reportStep_of_faulted {s : State} (h : s.pending = none) (hrun : s.run = .faulted) :
    reportStep s = ({ s with command := none }, .fault s.fault) := by
  simp [reportStep, h, hrun]

/-- A report writes the command in progress alone, and never RUN. -/
theorem reportStep_state (s : State) :
    ∃ c : Option RunningCommand, c ≠ some .run ∧ (reportStep s).1 = { s with command := c } := by
  by_cases h : s.pending = none
  · refine ⟨none, nofun, ?_⟩
    cases hrun : s.run with
    | ready => rw [reportStep_of_ready h hrun, ← hrun]
    | halted => rw [reportStep_of_halted h hrun, ← hrun]
    | faulted => rw [reportStep_of_faulted h hrun, ← hrun]
  · exact ⟨some .step, nofun, by rw [reportStep_of_pending h]⟩

/-! ## RUN's loop -/

theorem runLoop_of_halted (n : Nat) {s : State} (hrun : s.run = .halted) :
    runLoop n s = ({ s with command := none }, .ok) := by
  cases n <;> simp [runLoop, hrun]

theorem runLoop_of_faulted (n : Nat) {s : State} (hrun : s.run = .faulted) :
    runLoop n s = ({ s with command := none }, .fault s.fault) := by
  cases n <;> simp [runLoop, hrun]

theorem runLoop_zero_of_ready {s : State} (hrun : s.run = .ready) :
    runLoop 0 s = ({ s with command := none }, .runaway) := by
  simp [runLoop, hrun]

theorem runLoop_succ_of_pending (n : Nat) {s : State} (hrun : s.run = .ready) (hp : (engineStep s).pending ≠ none) :
    runLoop (n + 1) s = ({ engineStep s with command := some .run }, .waiting) := by
  simp [runLoop, hrun, Option.isSome_iff_ne_none, hp]

theorem runLoop_succ_of_ready (n : Nat) {s : State} (hrun : s.run = .ready) (hp : (engineStep s).pending = none) :
    runLoop (n + 1) s = runLoop n { engineStep s with iter := s.iter + 1 } := by
  simp [runLoop, hrun, hp, (controller_engineStep s).1]

/-- How RUN's loop ends, with `n` steps left and `i` steps counted: `k` steps from `s` it is HALTED, or FAULTED, or has
taken its steps, or the `k`-th step waits for input and is not counted. -/
inductive RunEnds (s : State) (n i k : Nat) : State × Reply → Prop
  | halted (hrun : (engineStep^[k] s).run = .halted) :
      RunEnds s n i k ({ engineStep^[k] s with iter := i + k, command := none }, .ok)
  | faulted (hrun : (engineStep^[k] s).run = .faulted) :
      RunEnds s n i k ({ engineStep^[k] s with iter := i + k, command := none }, .fault (engineStep^[k] s).fault)
  | runaway (hk : k = n) (hrun : (engineStep^[k] s).run = .ready) (hp : (engineStep^[k] s).pending = none) :
      RunEnds s n i k ({ engineStep^[k] s with iter := i + k, command := none }, .runaway)
  | waiting (hk : 1 ≤ k) (hp : (engineStep^[k] s).pending ≠ none) :
      RunEnds s n i k ({ engineStep^[k] s with iter := i + (k - 1), command := some .run }, .waiting)

/-- Every state before the `k`-th step from `s` is READY with no request waiting. -/
def RunsFor (s : State) (k : Nat) : Prop :=
  ∀ j, j < k → (engineStep^[j] s).run = .ready ∧ (engineStep^[j] s).pending = none

theorem RunsFor.zero (s : State) : RunsFor s 0 := fun _ hj => absurd hj (Nat.not_lt_zero _)

theorem RunsFor.succ {s : State} {k : Nat} (hrun : s.run = .ready) (hp : s.pending = none)
    (h : RunsFor (engineStep s) k) : RunsFor s (k + 1) := by
  intro j hj
  cases j with
  | zero => exact ⟨hrun, hp⟩
  | succ j => exact h j (by omega)

/-- One counted step more in front. -/
theorem RunEnds.succ {s : State} {n i k : Nat} {r : State × Reply} (h : RunEnds (engineStep s) n (i + 1) k r) :
    RunEnds s (n + 1) i (k + 1) r := by
  have hcount : i + 1 + k = i + (k + 1) := by omega
  cases h with
  | halted hrun =>
    rw [hcount]
    exact .halted hrun
  | faulted hrun =>
    rw [hcount]
    exact .faulted hrun
  | runaway hk hrun hp =>
    rw [hcount]
    exact .runaway (by omega) hrun hp
  | waiting hk hp =>
    have hcount : i + 1 + (k - 1) = i + (k + 1 - 1) := by omega
    rw [hcount]
    exact .waiting (by omega) hp

/-- A stopped machine ends the loop at once. -/
theorem runLoop_ends_of_stopped (n : Nat) {s : State} (hrun : s.run ≠ .ready) (i : Nat) :
    RunEnds s n i 0 (runLoop n { s with iter := i }) := by
  by_cases hhalted : s.run = .halted
  · rw [runLoop_of_halted n (s := { s with iter := i }) hhalted]
    exact .halted hhalted
  · have hfaulted : s.run = .faulted := by
      cases hr : s.run <;> simp_all
    rw [runLoop_of_faulted n (s := { s with iter := i }) hfaulted]
    exact .faulted hfaulted

theorem engineStep_withIter (s : State) (i : Nat) : engineStep { s with iter := i } = { engineStep s with iter := i } :=
  (engineStep_withController s i s.command).trans (by simp only [(controller_engineStep s).2])

/-- RUN's loop takes the engine's steps, and ends in one of its four ways. -/
theorem runLoop_ends (n : Nat) {s : State} (hp : s.pending = none) (i : Nat) :
    ∃ k, k ≤ n ∧ RunsFor s k ∧ RunEnds s n i k (runLoop n { s with iter := i }) := by
  induction n generalizing s i with
  | zero =>
    refine ⟨0, Nat.le_refl 0, RunsFor.zero s, ?_⟩
    by_cases hrun : s.run = .ready
    · rw [runLoop_zero_of_ready (s := { s with iter := i }) hrun]
      exact .runaway rfl hrun hp
    · exact runLoop_ends_of_stopped 0 hrun i
  | succ n ih =>
    by_cases hrun : s.run = .ready
    · have hstep := engineStep_withIter s i
      by_cases hp' : (engineStep s).pending = none
      · obtain ⟨k, hk, hfor, hends⟩ := ih hp' (i + 1)
        refine ⟨k + 1, by omega, hfor.succ hrun hp, ?_⟩
        rw [runLoop_succ_of_ready n (s := { s with iter := i }) hrun (by rw [hstep]; exact hp'), hstep]
        exact hends.succ
      · refine ⟨1, by omega, (RunsFor.zero _).succ hrun hp, ?_⟩
        rw [runLoop_succ_of_pending n (s := { s with iter := i }) hrun (by rw [hstep]; exact hp'), hstep]
        exact .waiting (Nat.le_refl 1) hp'
    · exact ⟨0, Nat.zero_le _, RunsFor.zero s, runLoop_ends_of_stopped _ hrun i⟩

/-- Settles O44: RUN is its loop from `iter = 0` with RUN_CAP steps left. -/
theorem runStepsUntilStopOrCap : Obligations.RunStepsUntilStopOrCap := by
  intro s hp
  obtain ⟨k, hk, hfor, hends⟩ := runLoop_ends s.cfg.runCap hp 0
  refine ⟨k, hk, hfor, ?_⟩
  rw [issue_run hp]
  generalize runLoop s.cfg.runCap { s with iter := 0 } = r at hends
  cases hends with
  | halted hrun => exact Or.inl ⟨hrun, by rw [Nat.zero_add]⟩
  | faulted hrun => exact Or.inr (Or.inl ⟨hrun, by rw [Nat.zero_add]⟩)
  | runaway hcap hrun hp' => exact Or.inr (Or.inr (Or.inl ⟨hcap, hrun, hp', by rw [Nat.zero_add]⟩))
  | waiting hk hp' => exact Or.inr (Or.inr (Or.inr ⟨hk, hp', by rw [Nat.zero_add]⟩))

/-- Settles O50: the answer finishes the IN in `u`, and the loop goes on from there with that step counted. -/
theorem answerContinuesRun : Obligations.AnswerContinuesRun := by
  intro x s p hrun hp hin hc hiter
  have hu : ∃ u, step { s with input := [x] } = .next u ∧ (x = .endOfInput → u.run = .faulted) ∧
      ((∃ v, x = .word v) → u.run = .ready) := by
    cases x with
    | word v => exact ⟨_, step_of_pending_word (s := { s with input := [.word v] }) hrun hp rfl, nofun, fun _ => hrun⟩
    | endOfInput =>
      exact ⟨_, step_of_pending_endOfInput (s := { s with input := [.endOfInput] }) hrun hp rfl, fun _ => rfl, nofun⟩
  obtain ⟨u, hstep, hend, hword⟩ := hu
  have hengine := engineStep_of_step hstep
  have hpu : u.pending = none :=
    hengine ▸ pending_engineStep_of_answer (s := { s with input := [x] }) hrun hp (List.cons_ne_nil _ _)
  refine ⟨u, hstep, hpu, (controller_eq_of_step hstep).1, hend, hword, ?_⟩
  obtain ⟨k, hk, hfor, hends⟩ := runLoop_ends (s.cfg.runCap - (s.iter + 1)) hpu (s.iter + 1)
  refine ⟨k, by omega, hfor, ?_⟩
  rw [answer_of_run (u := u) (by simp [hp]) hc (by rw [hin]; exact hengine)]
  generalize runLoop (s.cfg.runCap - (s.iter + 1)) { u with iter := s.iter + 1 } = r at hends
  cases hends with
  | halted hrun' => exact Or.inl ⟨hrun', rfl⟩
  | faulted hrun' => exact Or.inr (Or.inl ⟨hrun', rfl⟩)
  | runaway hcap hrun' hp' => exact Or.inr (Or.inr (Or.inl ⟨by omega, hrun', hp', rfl⟩))
  | waiting hk' hp' =>
    have hcount : s.iter + 1 + (k - 1) = s.iter + k := by omega
    exact Or.inr (Or.inr (Or.inr ⟨hk', hp', by rw [hcount]⟩))

/-! ## The invariant over commands and answers -/

theorem inv_iterate_engineStep {s : State} (h : Inv s) (k : Nat) : Inv (engineStep^[k] s) :=
  Function.Iterate.rec Inv h (fun _ => inv_engineStep) k

@[simp] theorem iterate_engineStep_cfg (s : State) (k : Nat) : (engineStep^[k] s).cfg = s.cfg :=
  Function.Iterate.rec (fun t : State => t.cfg = s.cfg) rfl (fun t ht => (engineStep_cfg t).trans ht) k

theorem Inv.withController {s : State} (h : Inv s) {n : Nat} {c : Option RunningCommand} (hn : n ≤ s.cfg.runCap)
    (hc : c = some .run → n < s.cfg.runCap) : Inv { s with iter := n, command := c } :=
  { h with iterBound := hn, runHasStepLeft := hc }

/-- Where RUN's loop ends it keeps the invariant: it counts no more than RUN_CAP steps, and a step that waits is left. -/
theorem RunEnds.inv {s : State} {n i k : Nat} {r : State × Reply} (h : RunEnds s n i k r) (hs : Inv s) (hk : k ≤ n)
    (hcap : i + n ≤ s.cfg.runCap) : Inv r.1 := by
  have hinv := inv_iterate_engineStep hs k
  cases h with
  | halted | faulted | runaway => exact hinv.withController (by rw [iterate_engineStep_cfg]; omega) nofun
  | waiting hk' => exact hinv.withController (by rw [iterate_engineStep_cfg]; omega) (by rw [iterate_engineStep_cfg]; omega)

theorem inv_runLoop {s : State} (h : Inv s) (hp : s.pending = none) {n i : Nat} (hcap : i + n ≤ s.cfg.runCap) :
    Inv (runLoop n { s with iter := i }).1 := by
  obtain ⟨k, hk, -, hends⟩ := runLoop_ends n hp i
  exact hends.inv h hk hcap

theorem inv_reportStep {s : State} (h : Inv s) : Inv (reportStep s).1 := by
  obtain ⟨c, hc, hs⟩ := reportStep_state s
  rw [hs]
  exact { h with runHasStepLeft := fun hrun => absurd hrun hc }

theorem inv_issue {s : State} (h : Inv s) (c : Command) : Inv (issue c s).1 := by
  by_cases hp : s.pending = none
  · cases c with
    | load p =>
      rw [issue_load p hp]
      split
      · exact inv_loadProgram h.cfgValid h.inputWords h.outputWords hp
          (fun hc => Nat.lt_of_le_of_lt (Nat.zero_le _) (h.runHasStepLeft hc)) ‹_›
      · exact h
    | step =>
      rw [issue_step hp]
      exact inv_reportStep (inv_engineStep h)
    | run =>
      rw [issue_run hp]
      exact inv_runLoop h hp (by omega)
    | getIp => rwa [issue_getIp hp]
    | getHalted => rwa [issue_getHalted hp]
    | snapshot => rwa [issue_snapshot hp]
    | dump a b => rwa [issue_dump a b hp]
  · rwa [issue_of_pending hp]

theorem inv_answer {s : State} (h : Inv s) {x : InputAnswer} (hx : ∀ v, x = .word v → fitsW s.cfg.wordWidth v) :
    Inv (answer x s).1 := by
  cases hp : s.pending with
  | none => rwa [answer_of_not_pending hp]
  | some p =>
    have hgiven : Inv { s with input := s.input ++ [x] } :=
      { h with
        inputWords := fun v hv => by
          rcases List.mem_append.mp hv with hv | hv
          · exact h.inputWords v hv
          · exact hx v (List.mem_singleton.mp hv).symm }
    by_cases hc : s.command = some .run
    · obtain ⟨hrun, -⟩ := h.pendingReady p hp
      have hpu := pending_engineStep_of_answer (s := { s with input := s.input ++ [x] }) hrun hp (by simp)
      have hleft := h.runHasStepLeft hc
      rw [answer_of_run (by simp [hp]) hc rfl]
      exact inv_runLoop (inv_engineStep hgiven) hpu (by rw [engineStep_cfg]; dsimp only; omega)
    · rw [answer_of_step (by simp [hp]) hc]
      exact inv_reportStep (inv_engineStep hgiven)

/-- Settles O32: a command or an answer is made of LOAD, steps, and writes of the controller within RUN_CAP. -/
theorem hostCommandsKeepInvariant : Obligations.HostCommandsKeepInvariant :=
  fun _ h => ⟨inv_issue h, inv_answer h nofun, fun v hv => inv_answer h (by rintro w ⟨⟩; exact hv)⟩

end Sys2Proof.Machine
end

section
/-! What the host sees of a command (spec/60_exceptions.md sections 1 to 5, spec/70_reset_and_hazards.md section 1). -/

namespace Sys2Proof.Machine

/-! ## LOAD -/

/-- After LOAD a cell holds its word of the program, and 0 past its end (R36). -/
theorem cell_loadProgram (p : List Int) (s : State) (a : Nat) : (loadProgram p s).cell a = p.getD a 0 := by
  have hget := get_tapeOfProgram p 0 a
  rw [Nat.zero_add] at hget
  simp only [State.cell, loadProgram_len, loadProgram_tape, hget, ite_eq_left_iff, not_lt]
  intro h
  rw [List.getD_eq_default p 0 h]

/-- Settles O42: LOAD is accepted, and writes the tape and the registers. -/
theorem loadResetsTheEngine : Obligations.LoadResetsTheEngine := by
  intro p s hp hl
  exact ⟨loadProgram p s, by rw [issue_load p hp, if_pos hl], cell_loadProgram p s, rfl⟩

/-- Settles O43: each of the two conditions breaks LOAD's precondition. -/
theorem unloadableProgramIsRefused : Obligations.UnloadableProgramIsRefused := by
  intro p s hp hbad
  have hl : ¬ Loadable p s := by
    rintro ⟨hlen, hwords⟩
    rcases hbad with hlong | ⟨v, hv, hfit⟩
    · omega
    · exact hfit (hwords v hv)
  rw [issue_load p hp, if_neg hl]

/-! ## STEP and the answer to its IN -/

/-- Settles O45: STEP is a step and its report. -/
theorem stepCommandReports : Obligations.StepCommandReports := by
  intro s hp
  rw [issue_step hp]
  exact ⟨(controller_engineStep s).1, reportStep_of_pending,
    fun hp' => ⟨reportStep_of_ready hp', reportStep_of_halted hp', reportStep_of_faulted hp'⟩⟩

theorem engineStep_of_word {s : State} {p : PendingInput} (hrun : s.run = .ready) (hp : s.pending = some p)
    (hin : s.input = []) (v : Int) :
    engineStep { s with input := s.input ++ [.word v] } = memWrite p.dest v { s with pending := none } := by
  refine engineStep_of_step ?_
  rw [hin]
  exact step_of_pending_word (s := { s with input := [.word v] }) hrun hp rfl

theorem engineStep_of_endOfInput {s : State} {p : PendingInput} (hrun : s.run = .ready) (hp : s.pending = some p)
    (hin : s.input = []) :
    engineStep { s with input := s.input ++ [.endOfInput] } =
      raiseFault p.instrAddr .inputUnavailable { s with pending := none } := by
  refine engineStep_of_step ?_
  rw [hin]
  exact step_of_pending_endOfInput (s := { s with input := [.endOfInput] }) hrun hp rfl

/-- Settles O49: a busy engine takes no command, and the answer's step is the rest of the waiting IN, then STEP's
report. -/
theorem waitingHostMayOnlyAnswer : Obligations.WaitingHostMayOnlyAnswer := by
  refine ⟨fun c s => issue_of_pending, fun x s => answer_of_not_pending, ?word, ?endOfInput⟩
  case word =>
    intro v s p hrun hp hd hin hc
    refine ⟨{ memWrite p.dest v { s with pending := none } with command := none }, ?_, rfl,
      storesAt_memWrite (s := { s with pending := none }) hd v⟩
    rw [answer_of_step (by simp [hp]) hc, engineStep_of_word hrun hp hin]
    exact reportStep_of_ready rfl hrun
  case endOfInput =>
    intro s p hrun hp hin hc
    refine ⟨_, _, ?_, rfl, rfl⟩
    rw [answer_of_step (by simp [hp]) hc, engineStep_of_endOfInput hrun hp hin]
    exact reportStep_of_faulted rfl rfl

/-- Settles O22: HALT's row of the map takes any mode digits; on the halted machine no command takes a step. -/
theorem haltStopsTheEngine : Obligations.HaltStopsTheEngine := by
  refine ⟨exec_halt, fun v hop => ?_, fun s hrun hp hc => ?_⟩
  · simp [decodeWord, decodeFields_eq, hop]
  · rw [issue_step hp, engineStep_of_step (step_of_halted hrun), reportStep_of_halted hp hrun, issue_run hp,
      runLoop_of_halted _ (s := { s with iter := 0 }) hrun, ← hc]
    exact ⟨rfl, rfl⟩

/-! ## DUMP -/

theorem clampToTape_eq (x : Int) (s : State) : (clampToTape x s : Int) = min (max x 0) s.len := by
  unfold clampToTape
  omega

/-- Settles O48: the reply lists the cells from the one clamped bound up to the other. -/
theorem dumpReturnsTheClampedRange : Obligations.DumpReturnsTheClampedRange := by
  intro s a b hp
  have ha := clampToTape_eq a s
  have hb := clampToTape_eq b s
  refine ⟨dumpCells a b s, issue_dump a b hp, ?_, fun k hk => ?_⟩
  · simp only [dumpCells, List.length_map, List.length_range']
    omega
  · simp only [dumpCells, List.length_map, List.length_range'] at hk
    rw [← ha, Int.toNat_natCast]
    simp [dumpCells, List.getElem?_range' hk]

/-! ## Kinds and codes -/

/-- Settles O51: the table of R106, row by row. -/
theorem faultKindsAndCodes : Obligations.FaultKindsAndCodes := by
  refine ⟨fun r => ?records, rfl, rfl, fun _ => rfl, rfl, fun y hrunaway hfault => ?replies⟩
  case records =>
    refine ⟨fun a x h => ?_, fun op w ip h => ?_, fun m k h => ?_, fun m k h => ?_, fun op v h => ?_, fun h => ?_⟩
    all_goals
      rw [FaultRecord.code, h]
      exact ⟨rfl, rfl⟩
  case replies =>
    cases y with
    | runaway => exact absurd rfl hrunaway
    | fault record =>
      cases record with
      | none => rfl
      | some r => exact absurd rfl (hfault r)
    | _ => rfl

end Sys2Proof.Machine
end

section
/-! The tape's form, the write target and the law of words (spec/20_memory.md, spec/40_alu.md section 1). -/

namespace Sys2Proof.Machine

/-- In the canonical form a pair is listed exactly when its word is not 0 and is what its address reads. -/
theorem Memory.mem_iff {m : Memory} (h : Memory.wf m) (c : Nat × Int) :
    c ∈ m ↔ c.2 ≠ 0 ∧ Memory.get m c.1 = c.2 := by
  refine ⟨fun hc => ⟨h.2 c hc, Memory.get_of_mem h hc⟩, fun ⟨hnz, hget⟩ => ?_⟩
  have hlisted : c.1 ∈ m.map Prod.fst := by
    by_contra hno
    exact hnz (hget.symm.trans (Memory.get_of_not_mem m c.1 hno))
  obtain ⟨d, hd, haddr⟩ := List.mem_map.mp hlisted
  have hword : d.2 = c.2 := by rw [← hget, ← haddr, Memory.get_of_mem h hd]
  rwa [← Prod.ext haddr hword]

/-- Two canonical lists with equal contents list the same pairs, in the same order. -/
theorem Memory.eq_of_get_eq {m m' : Memory} (h : Memory.wf m) (h' : Memory.wf m')
    (hget : ∀ a, Memory.get m a = Memory.get m' a) : m = m' := by
  have hperm : m.Perm m' := by
    refine (List.perm_ext_iff_of_nodup ?_ ?_).mpr fun c => ?_
    · exact h.1.imp fun hlt heq => by simp [heq] at hlt
    · exact h'.1.imp fun hlt heq => by simp [heq] at hlt
    · rw [Memory.mem_iff h, Memory.mem_iff h', hget]
  exact hperm.eq_of_pairwise (fun x y _ _ hxy hyx => absurd hxy (Nat.lt_asymm hyx)) h.1 h'.1

/-- Settles O28: each operation keeps the form, and the form lists the non-zero cells in order. -/
theorem tapeFormIsCanonical : Obligations.TapeFormIsCanonical :=
  ⟨fun _ a v h => Memory.wf_set h a v, fun _ lo hi h => Memory.wf_zeroFill h lo hi, tapeOfProgram_wf,
    fun _ _ => Memory.eq_of_get_eq⟩

/-- Settles O25: the range check, then the growth over the address. -/
theorem writeTargetIsCheckedAndAllocated : Obligations.WriteTargetIsCheckedAndAllocated := by
  refine fun a s => ⟨resolveWrite_outOfBounds, fun hb => ?_⟩
  obtain ⟨t, hr, hcells, ht⟩ := resolveWrite_inBounds hb
  exact ⟨t, hr, ht, hcells⟩

/-- Two words congruent modulo `2^W` are equal: they differ by less than the modulus. -/
theorem eq_of_fitsW_of_dvd {W : Nat} (hW : 1 ≤ W) {v w : Int} (hv : fitsW W v) (hw : fitsW W w)
    (h : (2 : Int) ^ W ∣ v - w) : v = w := by
  obtain ⟨hv1, hv2⟩ := hv
  obtain ⟨hw1, hw2⟩ := hw
  have hhalf := two_pow_half hW
  have hzero : v - w = 0 := Int.eq_zero_of_abs_lt_dvd h (by rw [abs_lt]; omega)
  omega

/-- Settles O29: under WRAP the wrapped result is a word congruent to the exact one, and no other word is. -/
theorem wordArithmeticLaw : Obligations.WordArithmeticLaw := by
  intro op r s hW
  refine ⟨arith_of_fits, arith_of_overflow_fault, fun hover hwrap => ?_⟩
  refine ⟨_, arith_of_overflow_wrap hover hwrap, fun w => ⟨fun ⟨hfit, hdvd⟩ => ?_, ?_⟩⟩
  · have hdiff : (2 : Int) ^ s.cfg.wordWidth ∣ w - wrapW s.cfg.wordWidth r := by
      have := dvd_sub hdvd (dvd_wrapW_sub s.cfg.wordWidth r)
      rwa [sub_sub_sub_cancel_right] at this
    exact eq_of_fitsW_of_dvd hW hfit (fitsW_wrapW hW r) hdiff
  · rintro rfl
    exact ⟨fitsW_wrapW hW r, dvd_wrapW_sub _ r⟩

end Sys2Proof.Machine
end

section
/-! The ten instructions once their operands are clear (spec/40_alu.md, spec/41_io.md, spec/42_control.md,
spec/43_relbase.md): the result of each from the operands read off the first state. -/

namespace Sys2Proof.Machine

/-! ## What is left of an instruction after its operands -/

/-- A result, if there is one, stored in cell `d`. -/
def storeResult (d : Nat) (r : Res Int) : Res Unit := r.andThen fun v t => .ok () (memWrite d v t)

/-- The rest of instruction `i`, with its word at `A` and started in `s`, in the state `u` its operands have left. -/
def instrFinish (i : Instr) (A : Nat) (s u : State) : Res Unit :=
  match i with
  | .add m0 m1 m2 => storeResult (operandDest s 2 m2) (arith 1 (operandValue s 0 m0 + operandValue s 1 m1) u)
  | .mul m0 m1 m2 => storeResult (operandDest s 2 m2) (arith 2 (operandValue s 0 m0 * operandValue s 1 m1) u)
  | .inp m0 => receiveInput A (operandDest s 0 m0) (issueRequest u)
  | .out m0 => .ok () (outputWrite (operandValue s 0 m0) u)
  | .jnz m0 m1 => jumpIf (decide (operandValue s 0 m0 ≠ 0)) (operandValue s 1 m1) u
  | .jz m0 m1 => jumpIf (decide (operandValue s 0 m0 = 0)) (operandValue s 1 m1) u
  | .lt m0 m1 m2 =>
    storeResult (operandDest s 2 m2) (.ok (boolWord (decide (operandValue s 0 m0 < operandValue s 1 m1))) u)
  | .eq m0 m1 m2 =>
    storeResult (operandDest s 2 m2) (.ok (boolWord (decide (operandValue s 0 m0 = operandValue s 1 m1))) u)
  | .arb m0 => (arith 9 (u.rb + operandValue s 0 m0) u).andThen fun r t => .ok () { t with rb := r }
  | .halt => .ok () { u with run := .halted }

/-- The cells the destination operands of `i` name lie below `n`. -/
def DestBelow (i : Instr) (s : State) (n : Nat) : Prop :=
  ∀ k m, i.operands[k]? = some (.dest, m) → operandDest s k m < n

theorem destBelow_of_ternary {i : Instr} {m0 m1 m2 : Mode} {s : State} {n : Nat}
    (hi : i.operands = [(.value, m0), (.value, m1), (.dest, m2)]) (hd : operandDest s 2 m2 < n) : DestBelow i s n := by
  intro k m hk
  rw [hi] at hk
  match k with
  | 0 | 1 => simp at hk
  | 2 =>
    simp only [List.getElem?_cons_succ, List.getElem?_cons_zero, Option.some.injEq, Prod.mk.injEq, true_and] at hk
    exact hk ▸ hd
  | k + 3 => simp at hk

theorem destBelow_of_values {i : Instr} (hi : ∀ o ∈ i.operands, o.1 = .value) (s : State) (n : Nat) :
    DestBelow i s n :=
  fun _ _ hk => nomatch hi _ (List.mem_of_getElem? hk)

/-- With its operands clear, an instruction is the rest of it in the state they leave. -/
theorem instrBody_of_clear {i : Instr} {s : State} {n : Nat} (h : scanOperands i s = .clear n) (A : Nat) :
    ∃ u, AfterOperands s i.arity n u ∧ DestBelow i s n ∧ instrBody i A s = instrFinish i A s u := by
  cases i with
  | add m0 m1 m2 | mul m0 m1 m2 | lt m0 m1 m2 | eq m0 m1 m2 =>
    obtain ⟨u, hu, hd, hr⟩ := (binaryOp_scan _ m0 m1 m2 s).1 n h
    exact ⟨u, hu, destBelow_of_ternary rfl hd, hr⟩
  | jnz m0 m1 | jz m0 m1 =>
    obtain ⟨u, hu, hr⟩ := (conditionalJump_scan _ m0 m1 s).1 n h
    exact ⟨u, hu, destBelow_of_values (by simp [Instr.operands]) s n, hr⟩
  | inp m0 =>
    obtain ⟨u, hr, hu, hd⟩ := (fetchAddress_scan (AfterOperands.start s)).1 n h
    refine ⟨u, hu, fun k m hk => ?_, by simp only [instrBody, hr, andThen_ok]; rfl⟩
    match k with
    | 0 =>
      cases hk
      exact hd
    | k + 1 => cases hk
  | out m0 | arb m0 =>
    obtain ⟨u, hr, hu⟩ := (oneValue_scan m0 s).1 n h
    exact ⟨u, hu, destBelow_of_values (by simp [Instr.operands]) s n, by simp only [instrBody, hr, andThen_ok]; rfl⟩
  | halt =>
    cases h
    exact ⟨s, AfterOperands.start s, destBelow_of_values (by simp [Instr.operands]) s _, rfl⟩

theorem exec_of_clear {i : Instr} {s : State} {n : Nat} (h : scanOperands i s = .clear n) :
    ∃ u, AfterOperands s i.arity n u ∧ DestBelow i s n ∧
      exec i s = conclude (instrAddress s) (instrFinish i (instrAddress s) s u) := by
  obtain ⟨u, hu, hd, hr⟩ := instrBody_of_clear h (instrAddress s)
  exact ⟨u, hu, hd, by rw [exec_eq_conclude, hr]⟩

/-- Settles O11: where the scan stops the resolver raises, and the instruction ends in fault entry. -/
theorem firstFailingOperandCheckIsTaken : Obligations.FirstFailingOperandCheckIsTaken := by
  intro i s f ip n h
  rw [exec_eq_conclude]
  exact ((instrBody_followsScan i _ s).2 f ip n h).faultsWith

/-! ## The arithmetic and the comparisons -/

/-- The instruction's own fault, raised once its operands are resolved. -/
theorem AfterOperands.faultsWith {s u : State} {k n : Nat} (hu : AfterOperands s k n u) (f : FaultInfo) :
    ∃ t, conclude (instrAddress s) (.raise f u) = .next t ∧ FaultsWith s t f (s.ip + k) n :=
  RaisesAt.faultsWith ⟨k, u, rfl, rfl, hu⟩

/-- ADD and MUL: an exact result under the law of words, stored by the third operand (spec/40_alu.md R87, R92). -/
theorem exec_arithmetic {i : Instr} {m0 m1 m2 : Mode} {op n : Nat} {r : Int} {s : State}
    (hops : i.operands = [(.value, m0), (.value, m1), (.dest, m2)])
    (hfinish : ∀ A u, instrFinish i A s u = storeResult (operandDest s 2 m2) (arith op r u))
    (h : scanOperands i s = .clear n) :
    (fitsW s.cfg.wordWidth r → ∃ t, exec i s = .next t ∧
      t = { s with tape := t.tape, len := n, ip := s.ip + 3 } ∧ StoresAt s t (operandDest s 2 m2) r) ∧
    (¬ fitsW s.cfg.wordWidth r → s.cfg.overflow = .wrap → ∃ t, exec i s = .next t ∧
      t = { s with tape := t.tape, len := n, ip := s.ip + 3 } ∧
      StoresAt s t (operandDest s 2 m2) (wrapW s.cfg.wordWidth r)) ∧
    (¬ fitsW s.cfg.wordWidth r → s.cfg.overflow = .fault → ∃ t, exec i s = .next t ∧
      FaultsWith s t (.overflow op r) (s.ip + 3) n) := by
  obtain ⟨u, hu, hd, he⟩ := exec_of_clear h
  have hd : operandDest s 2 m2 < n := hd 2 m2 (by rw [hops]; rfl)
  rw [Instr.arity, hops] at hu
  rw [hfinish, storeResult] at he
  have hcfg := hu.cfg
  rw [he]
  refine ⟨fun hfit => ?_, fun hover hwrap => ?_, fun hover hfault => ?_⟩
  · rw [arith_of_fits (hcfg ▸ hfit)]
    exact ⟨_, rfl, hu.storesAt hd r⟩
  · rw [arith_of_overflow_wrap (hcfg ▸ hover) (hcfg ▸ hwrap), hcfg]
    exact ⟨_, rfl, hu.storesAt hd _⟩
  · rw [arith_of_overflow_fault (hcfg ▸ hover) (hcfg ▸ hfault)]
    exact hu.faultsWith _

/-- Settles O12: ADD is `exec_arithmetic` with the sum. -/
theorem addStoresSum : Obligations.AddStoresSum :=
  fun _ _ _ _ _ h => exec_arithmetic rfl (fun _ _ => rfl) h

/-- Settles O13: MUL is `exec_arithmetic` with the product. -/
theorem mulStoresProduct : Obligations.MulStoresProduct :=
  fun _ _ _ _ _ h => exec_arithmetic rfl (fun _ _ => rfl) h

/-- LT and EQ: the comparison's 0 or 1, stored by the third operand (R90 to R92). -/
theorem exec_comparison {i : Instr} {m0 m1 m2 : Mode} {n : Nat} {b : Bool} {s : State}
    (hops : i.operands = [(.value, m0), (.value, m1), (.dest, m2)])
    (hfinish : ∀ A u, instrFinish i A s u = storeResult (operandDest s 2 m2) (.ok (boolWord b) u))
    (h : scanOperands i s = .clear n) :
    ∃ t, exec i s = .next t ∧ t = { s with tape := t.tape, len := n, ip := s.ip + 3 } ∧
      StoresAt s t (operandDest s 2 m2) (boolWord b) := by
  obtain ⟨u, hu, hd, he⟩ := exec_of_clear h
  have hd : operandDest s 2 m2 < n := hd 2 m2 (by rw [hops]; rfl)
  rw [Instr.arity, hops] at hu
  rw [hfinish] at he
  exact ⟨_, he, hu.storesAt hd _⟩

theorem boolWord_decide (p : Prop) [Decidable p] : boolWord (decide p) = if p then 1 else 0 := by
  by_cases hp : p <;> simp [boolWord, hp]

/-- Settles O14: LT is `exec_comparison` with `a < b`. -/
theorem ltStoresComparison : Obligations.LtStoresComparison := by
  intro m0 m1 m2 s n h
  rw [← boolWord_decide]
  exact exec_comparison rfl (fun _ _ => rfl) h

/-- Settles O15: EQ is `exec_comparison` with `a = b`. -/
theorem eqStoresComparison : Obligations.EqStoresComparison := by
  intro m0 m1 m2 s n h
  rw [← boolWord_decide]
  exact exec_comparison rfl (fun _ _ => rfl) h

/-! ## Input and output -/

/-- The state after the operands is the first one but for the tape's list, `len` and `ip`. -/
theorem AfterOperands.exists_tape {s u : State} {k n : Nat} (hu : AfterOperands s k n u) :
    ∃ τ, u = { s with tape := τ, len := n, ip := s.ip + k } :=
  ⟨u.tape, hu.1⟩

/-- Settles O16, by the three states of the queue of answers. -/
theorem inStoresAnswerWaitsOrFaults : Obligations.InStoresAnswerWaitsOrFaults := by
  intro m0 s n h
  obtain ⟨u, hu, hd, he⟩ := exec_of_clear h
  have hcells := hu.2
  have hd : operandDest s 0 m0 < n := hd 0 m0 rfl
  obtain ⟨τ, rfl⟩ := hu.exists_tape
  simp only [instrFinish, receiveInput, issueRequest_input] at he
  refine ⟨fun v rest hin => ?_, fun hin => ?_, fun rest hin => ?_⟩
  · rw [hin] at he
    exact ⟨_, he, rfl, (hu.storesAt hd v).2⟩
  · rw [hin] at he
    exact ⟨_, he, by rw [hin]; rfl, hcells⟩
  · rw [hin] at he
    exact ⟨_, he, rfl, hcells⟩

/-- Settles O18: what is left of OUT after its operand is the output's write. -/
theorem outSendsItsValue : Obligations.OutSendsItsValue := by
  intro m0 s n h
  obtain ⟨u, hu, -, he⟩ := exec_of_clear h
  have hcells := hu.2
  obtain ⟨τ, rfl⟩ := hu.exists_tape
  exact ⟨_, he, rfl, hcells⟩

/-! ## The jumps -/

/-- JNZ and JZ: a jump to its target, none, or the fault of a negative target (spec/42_control.md R99, R102). -/
theorem exec_jump {i : Instr} {m0 m1 : Mode} {n : Nat} {taken : Bool} {target : Int} {s : State}
    (hops : i.operands = [(.value, m0), (.value, m1)]) (hfinish : ∀ A u, instrFinish i A s u = jumpIf taken target u)
    (h : scanOperands i s = .clear n) :
    (taken = true → 0 ≤ target → ∃ t, exec i s = .next t ∧
      t = { s with tape := t.tape, len := n, ip := target.toNat } ∧ SameCells s t) ∧
    (taken = false → ∃ t, exec i s = .next t ∧
      t = { s with tape := t.tape, len := n, ip := s.ip + 2 } ∧ SameCells s t) ∧
    (taken = true → target < 0 → ∃ t, exec i s = .next t ∧
      FaultsWith s t (.outOfBounds target .jump) (s.ip + 2) n) := by
  obtain ⟨u, hu, -, he⟩ := exec_of_clear h
  rw [Instr.arity, hops] at hu
  have hcells := hu.2
  rw [hfinish] at he
  refine ⟨?_, ?_, ?_⟩
  · rintro rfl hnonneg
    obtain ⟨τ, rfl⟩ := hu.exists_tape
    rw [jumpIf, if_pos rfl, if_neg (by omega)] at he
    exact ⟨_, he, rfl, hcells⟩
  · rintro rfl
    obtain ⟨τ, rfl⟩ := hu.exists_tape
    exact ⟨_, he, rfl, hcells⟩
  · rintro rfl hneg
    rw [jumpIf, if_pos rfl, if_pos hneg] at he
    rw [he]
    exact hu.faultsWith _

/-- Settles O19: JNZ is `exec_jump`, taken when the condition is not 0. -/
theorem jnzJumpsOnNonZero : Obligations.JnzJumpsOnNonZero := by
  intro m0 m1 s n h
  simpa using exec_jump rfl (fun _ _ => rfl) h

/-- Settles O20: JZ is `exec_jump`, taken when the condition is 0. -/
theorem jzJumpsOnZero : Obligations.JzJumpsOnZero := by
  intro m0 m1 s n h
  simpa using exec_jump rfl (fun _ _ => rfl) h

/-! ## The relative base -/

/-- Settles O21: the operands leave `rb`, so the sum is of the old one. -/
theorem arbAdjustsRelativeBase : Obligations.ArbAdjustsRelativeBase := by
  intro m0 s n h
  obtain ⟨u, hu, -, he⟩ := exec_of_clear h
  have hcfg := hu.cfg
  have hframe (b : Int) : { u with rb := b } = { s with tape := u.tape, len := n, ip := s.ip + 1, rb := b } := by
    obtain ⟨τ, rfl⟩ := hu.exists_tape
    rfl
  rw [instrFinish, hu.rb] at he
  rw [he]
  refine ⟨fun hfit => ?_, fun hover hwrap => ?_, fun hover hfault => ?_⟩
  · rw [arith_of_fits (hcfg ▸ hfit)]
    exact ⟨_, rfl, hframe _, hu.2⟩
  · rw [arith_of_overflow_wrap (hcfg ▸ hover) (hcfg ▸ hwrap), hcfg]
    exact ⟨_, rfl, hframe _, hu.2⟩
  · rw [arith_of_overflow_fault (hcfg ▸ hover) (hcfg ▸ hfault)]
    exact hu.faultsWith _

end Sys2Proof.Machine
end

section
/-! What no instruction does (spec/10_state.md section 5, spec/20_memory.md section 2, spec/30_encoding.md section 4), from
the ways an instruction can end. -/

namespace Sys2Proof.Machine

/-! ## `run` and the fault record -/

/-- An instruction that runs in READY with no record and is not HALT ends READY without a record, or FAULTED with one. -/
theorem InstrEnd.run_fault {A : Nat} {s u t : State} {i : Instr} {r : Res Unit} (h : InstrEnd A s u i r)
    (ht : conclude A r = .next t) (hi : i ≠ .halt) (hrun : u.run = .ready) (hfault : u.fault = none) :
    (t.run = .ready ∧ t.fault = none) ∨ (t.run = .faulted ∧ t.fault ≠ none) := by
  cases h with
  | raise | inputEnds => cases ht; exact Or.inr ⟨rfl, nofun⟩
  | halt => exact absurd rfl hi
  | _ => cases ht; exact Or.inl ⟨hrun, hfault⟩

theorem run_fault_of_exec {i : Instr} {s t : State} (h : exec i s = .next t) (hi : i ≠ .halt) (hrun : s.run = .ready)
    (hfault : s.fault = none) : (t.run = .ready ∧ t.fault = none) ∨ (t.run = .faulted ∧ t.fault ≠ none) := by
  rcases exec_cases h with ⟨f, ip, n, -, ht, -⟩ | ⟨n, u, r, -, hu, hend, hr⟩
  · rw [ht]
    exact Or.inr ⟨rfl, nofun⟩
  · obtain ⟨τ, rfl⟩ := hu.exists_tape
    exact hend.run_fault hr hi hrun hfault

/-- Settles O36: HALT's own end, and the ends of the others. -/
theorem onlyHaltHalts : Obligations.OnlyHaltHalts := by
  intro i s t hrun hfault h
  by_cases hi : i = .halt
  · subst hi
    cases h
    simp [hfault]
  · rcases run_fault_of_exec h hi hrun hfault with ⟨hr, hf⟩ | ⟨hr, hf⟩ <;> simp [hr, hf, hi]

/-! ## `ip` -/

theorem InstrEnd.ip_eq {A : Nat} {s u t : State} {i : Instr} {r : Res Unit} (h : InstrEnd A s u i r)
    (ht : conclude A r = .next t) : t.ip = u.ip ∨ (∃ m0 m1, i = .jnz m0 m1) ∨ ∃ m0 m1, i = .jz m0 m1 := by
  cases h with
  | jump hi => exact Or.inr hi
  | _ => cases ht; exact Or.inl rfl

/-- Settles O38: the scan that stops ends FAULTED, and past the operands only a taken jump writes `ip`. -/
theorem ipAdvancesPastTheInstruction : Obligations.IpAdvancesPastTheInstruction := by
  intro i s t _ h hsafe
  rcases exec_cases h with ⟨f, ip, n, -, ht, -⟩ | ⟨n, u, r, -, hu, hend, hr⟩
  · rw [ht] at hsafe
    exact absurd rfl hsafe
  · rw [← hu.ip]
    exact hend.ip_eq hr

/-! ## The cells -/

/-- Past its operands an instruction changes at most the cell a destination operand names. -/
theorem InstrEnd.cell_eq {A : Nat} {s u t : State} {i : Instr} {r : Res Unit} (h : InstrEnd A s u i r)
    (ht : conclude A r = .next t) (a : Nat) :
    t.cell a = u.cell a ∨ ∃ k m, i.operands[k]? = some (.dest, m) ∧ a = operandDest s k m := by
  cases h with
  | @store _ k m v hop hd =>
    cases ht
    by_cases ha : a = operandDest s k m
    · exact Or.inr ⟨k, m, hop, ha⟩
    · exact Or.inl ((storesAt_memWrite hd v).2 a ha)
  | receive m v rest hd =>
    cases ht
    by_cases ha : a = operandDest s 0 m
    · exact Or.inr ⟨0, m, rfl, ha⟩
    · exact Or.inl ((storesAt_memWrite (s := { issueRequest u with input := rest, pending := none }) hd v).2 a ha)
  | _ => cases ht; exact Or.inl rfl

/-- Settles O39: operands change no cell, and of the ends only a store does. -/
theorem onlyTheDestinationCellChanges : Obligations.OnlyTheDestinationCellChanges := by
  intro i s t a h hne
  rcases exec_cases h with ⟨f, ip, n, -, -, hcells⟩ | ⟨n, u, r, -, hu, hend, hr⟩
  · exact absurd (hcells a) hne
  · rw [← hu.2 a] at hne
    exact (hend.cell_eq hr a).resolve_left hne

end Sys2Proof.Machine
end

section
/-! READ_GROWTH shows in the tape length alone (spec/20_memory.md R44): two states with the same cells and the same fields,
`readGrowth`, the tape's list and `len` apart, step alike. -/

namespace Sys2Proof.Machine

/-! ## Updates of both states -/

/-- The second state is the first with another `readGrowth`, list and `len`. -/
theorem SameButLen.exists_eq {s s' : State} (h : SameButLen s s') :
    ∃ g τ l, s' = { s with cfg := { s.cfg with readGrowth := g }, tape := τ, len := l } :=
  ⟨_, _, _, h.1⟩

/-- What an operation reads of the two states is the same. -/
theorem SameButLen.operandAddress_eq {s s' : State} (h : SameButLen s s') (k : Nat) (m : Mode) :
    operandAddress s' k m = operandAddress s k m := by
  have hcells := h.2
  obtain ⟨g, τ, l, rfl⟩ := h.exists_eq
  simp only [operandAddress, State.raw, hcells _]

theorem SameButLen.operandDest_eq {s s' : State} (h : SameButLen s s') (k : Nat) (m : Mode) :
    operandDest s' k m = operandDest s k m := by
  simp only [operandDest, h.operandAddress_eq]

/-- The raw cell is the address of the position mode. -/
theorem SameButLen.raw_eq {s s' : State} (h : SameButLen s s') (k : Nat) : s'.raw k = s.raw k :=
  h.operandAddress_eq k .position

theorem SameButLen.operandValue_eq {s s' : State} (h : SameButLen s s') (k : Nat) (m : Mode) :
    operandValue s' k m = operandValue s k m := by
  cases m <;> simp only [operandValue, h.operandAddress_eq, h.raw_eq, h.2 _]

theorem SameButLen.operandFault_eq {s s' : State} (h : SameButLen s s') (k : Nat) (role : Role) (m : Mode) :
    operandFault s' k role m = operandFault s k role m := by
  have hbounds (a : Int) : InBounds s' a ↔ InBounds s a := by
    obtain ⟨g, τ, l, rfl⟩ := h.exists_eq
    rfl
  cases role <;> cases m <;> simp only [operandFault, h.operandAddress_eq, hbounds]

/-! ## The operands -/

/-- Two scans that stop at the same check, or are both clear. -/
def OperandScan.Alike : OperandScan → OperandScan → Prop
  | .clear _, .clear _ => True
  | .stops f ip _, .stops f' ip' _ => f = f' ∧ ip = ip'
  | _, _ => False

theorem SameButLen.scanFrom_alike {s s' : State} (h : SameButLen s s') (ops : List (Role × Mode)) (k len len' : Nat) :
    (scanFrom s k len ops).Alike (scanFrom s' k len' ops) := by
  induction ops generalizing k len len' with
  | nil => trivial
  | cons o rest ih =>
    have hip : s'.ip = s.ip := by rw [h.1]
    have hlimit : s'.cfg.memLimit = s.cfg.memLimit := by rw [h.1]
    simp only [scanFrom, hip, hlimit, h.operandFault_eq]
    split
    · split
      · exact ⟨rfl, rfl⟩
      · exact ih _ _ _
    · exact ⟨rfl, rfl⟩

/-- Each state after the same number of operands. -/
theorem SameButLen.afterOperands {s s' u u' : State} {k n n' : Nat} (h : SameButLen s s') (hu : AfterOperands s k n u)
    (hu' : AfterOperands s' k n' u') : SameButLen u u' := by
  refine ⟨?_, fun a => (hu'.2 a).trans ((h.2 a).trans (hu.2 a).symm)⟩
  obtain ⟨g, τ, l, rfl⟩ := h.exists_eq
  obtain ⟨σ, rfl⟩ := hu.exists_tape
  obtain ⟨σ', rfl⟩ := hu'.exists_tape
  rfl

/-! ## The rest of an instruction -/

/-- The same answer in both states, or the same raise. -/
def Res.Alike {α : Type} : Res α → Res α → Prop
  | .ok v t, .ok v' t' => v = v' ∧ SameButLen t t'
  | .raise f t, .raise f' t' => f = f' ∧ SameButLen t t'
  | _, _ => False

/-- A store in a cell allocated in both. -/
theorem SameButLen.memWrite {s s' : State} (h : SameButLen s s') {d : Nat} (hd : d < s.len) (hd' : d < s'.len) (v : Int) :
    SameButLen (memWrite d v s) (memWrite d v s') := by
  refine ⟨?_, fun a => ?_⟩
  · obtain ⟨g, τ, l, rfl⟩ := h.exists_eq
    rfl
  · rw [cell_memWrite hd, cell_memWrite hd', h.2]

/-- The update reads neither `readGrowth` nor the tape, and changes no cell. -/
def LengthBlind (f : State → State) : Prop :=
  (∀ s g τ l, f { s with cfg := { s.cfg with readGrowth := g }, tape := τ, len := l } =
    { f s with cfg := { (f s).cfg with readGrowth := g }, tape := τ, len := l }) ∧
  ∀ s, SameCells s (f s)

/-- The same update of both states. -/
theorem SameButLen.map {s s' : State} (h : SameButLen s s') {f : State → State} (hf : LengthBlind f) :
    SameButLen (f s) (f s') := by
  obtain ⟨hfields, hcells⟩ := hf
  refine ⟨?_, fun a => (hcells s' a).trans ((h.2 a).trans (hcells s a).symm)⟩
  obtain ⟨g, τ, l, rfl⟩ := h.exists_eq
  rw [hfields]

theorem SameButLen.raiseFault {s s' : State} (h : SameButLen s s') (A : Nat) (f : FaultInfo) :
    SameButLen (raiseFault A f s) (raiseFault A f s') :=
  h.map ⟨fun _ _ _ _ => rfl, fun _ _ => rfl⟩

theorem SameButLen.setIp {s s' : State} (h : SameButLen s s') (a : Nat) :
    SameButLen { s with ip := a } { s' with ip := a } :=
  h.map (f := fun t => { t with ip := a }) ⟨fun _ _ _ _ => rfl, fun _ _ => rfl⟩

theorem SameButLen.setRb {s s' : State} (h : SameButLen s s') (b : Int) :
    SameButLen { s with rb := b } { s' with rb := b } :=
  h.map (f := fun t => { t with rb := b }) ⟨fun _ _ _ _ => rfl, fun _ _ => rfl⟩

theorem SameButLen.setRun {s s' : State} (h : SameButLen s s') (r : RunState) :
    SameButLen { s with run := r } { s' with run := r } :=
  h.map (f := fun t => { t with run := r }) ⟨fun _ _ _ _ => rfl, fun _ _ => rfl⟩

theorem SameButLen.setPending {s s' : State} (h : SameButLen s s') (p : Option PendingInput) :
    SameButLen { s with pending := p } { s' with pending := p } :=
  h.map (f := fun t => { t with pending := p }) ⟨fun _ _ _ _ => rfl, fun _ _ => rfl⟩

theorem SameButLen.setInput {s s' : State} (h : SameButLen s s') (answers : List InputAnswer) :
    SameButLen { s with input := answers } { s' with input := answers } :=
  h.map (f := fun t => { t with input := answers }) ⟨fun _ _ _ _ => rfl, fun _ _ => rfl⟩

theorem SameButLen.outputWrite {s s' : State} (h : SameButLen s s') (v : Int) :
    SameButLen (outputWrite v s) (outputWrite v s') :=
  h.map ⟨fun _ _ _ _ => rfl, fun _ _ => rfl⟩

theorem SameButLen.issueRequest {s s' : State} (h : SameButLen s s') :
    SameButLen (issueRequest s) (issueRequest s') :=
  h.map ⟨fun _ _ _ _ => rfl, fun _ _ => rfl⟩

/-- The law of words gives the same result in both states, or the same fault. -/
theorem SameButLen.arith_andThen_alike {s s' : State} (h : SameButLen s s') (op : Nat) (r : Int)
    {k : Int → State → Res Unit} (hk : ∀ v, (k v s).Alike (k v s')) :
    ((arith op r s).andThen k).Alike ((arith op r s').andThen k) := by
  have hwidth : s'.cfg.wordWidth = s.cfg.wordWidth := by rw [h.1]
  have hpolicy : s'.cfg.overflow = s.cfg.overflow := by rw [h.1]
  simp only [arith, hwidth, hpolicy]
  split
  · exact hk _
  · split
    · exact hk _
    · exact ⟨rfl, h⟩

theorem SameButLen.jumpIf_alike {s s' : State} (h : SameButLen s s') (taken : Bool) (target : Int) :
    (jumpIf taken target s).Alike (jumpIf taken target s') := by
  unfold jumpIf
  split
  · split
    · exact ⟨rfl, h⟩
    · exact ⟨rfl, h.setIp _⟩
  · exact ⟨rfl, h⟩

theorem SameButLen.receiveInput_alike {s s' : State} (h : SameButLen s s') (A : Nat) {d : Nat} (hd : d < s.len)
    (hd' : d < s'.len) : (receiveInput A d s).Alike (receiveInput A d s') := by
  have hin : s'.input = s.input := by rw [h.1]
  simp only [receiveInput, hin]
  split
  case h_1 => exact ⟨rfl, (h.setInput s.input).setPending _⟩
  case h_2 v rest _ => exact ⟨rfl, ((h.setInput rest).setPending none).memWrite hd hd' v⟩
  case h_3 rest _ => exact ⟨rfl, (h.setInput rest).setPending none⟩

theorem SameButLen.instrFinish_alike {i : Instr} {s s' u u' : State} (h : SameButLen s s') (hu : SameButLen u u')
    (hd : DestBelow i s u.len) (hd' : DestBelow i s' u'.len) (A : Nat) :
    (instrFinish i A s u).Alike (instrFinish i A s' u') := by
  have hvalue := h.operandValue_eq
  have hdest := h.operandDest_eq
  cases i with
  | add m0 m1 m2 | mul m0 m1 m2 =>
    have hd' := hd' 2 m2 rfl
    rw [hdest] at hd'
    simp only [instrFinish, hvalue, hdest]
    exact hu.arith_andThen_alike _ _ fun v => ⟨rfl, hu.memWrite (hd 2 m2 rfl) hd' v⟩
  | lt m0 m1 m2 | eq m0 m1 m2 =>
    have hd' := hd' 2 m2 rfl
    rw [hdest] at hd'
    simp only [instrFinish, hvalue, hdest]
    exact ⟨rfl, hu.memWrite (hd 2 m2 rfl) hd' _⟩
  | inp m0 =>
    have hd' := hd' 0 m0 rfl
    rw [hdest] at hd'
    simp only [instrFinish, hdest]
    exact hu.issueRequest.receiveInput_alike A (hd 0 m0 rfl) hd'
  | out m0 =>
    simp only [instrFinish, hvalue]
    exact ⟨rfl, hu.outputWrite _⟩
  | jnz m0 m1 | jz m0 m1 =>
    simp only [instrFinish, hvalue]
    exact hu.jumpIf_alike _ _
  | arb m0 =>
    have hrb : u'.rb = u.rb := by rw [hu.1]
    simp only [instrFinish, hvalue, hrb]
    exact hu.arith_andThen_alike _ _ fun r => ⟨rfl, hu.setRb r⟩
  | halt => exact ⟨rfl, hu.setRun _⟩

/-! ## Instructions and steps -/

/-- Two outcomes that are both next states, alike. -/
def StepsAlike (o o' : Host.Outcome State Fault Refusal) : Prop :=
  ∀ t, o = .next t → ∃ t', o' = .next t' ∧ SameButLen t t'

theorem SameButLen.stepsAlike {t t' : State} (h : SameButLen t t') : StepsAlike (.next t) (.next t') := by
  rintro u ⟨⟩
  exact ⟨t', rfl, h⟩

theorem Res.Alike.conclude {r r' : Res Unit} (h : r.Alike r') (A : Nat) : StepsAlike (conclude A r) (conclude A r') := by
  cases r <;> cases r'
  case ok.ok => exact h.2.stepsAlike
  case raise.raise f t f' t' =>
    obtain ⟨rfl, ht⟩ := h
    exact (ht.raiseFault A f).stepsAlike
  all_goals exact h.elim

/-- Fault entry in both states with the same record. -/
theorem SameButLen.faultsWith {s s' t t' : State} {f : FaultInfo} {ip n n' : Nat} (h : SameButLen s s')
    (ht : FaultsWith s t f ip n) (ht' : FaultsWith s' t' f ip n') : SameButLen t t' := by
  obtain ⟨hfields, hcells⟩ := ht
  obtain ⟨hfields', hcells'⟩ := ht'
  refine ⟨?_, fun a => (hcells' a).trans ((h.2 a).trans (hcells a).symm)⟩
  obtain ⟨g, τ, l, rfl⟩ := h.exists_eq
  rw [hfields, hfields']
  rfl

theorem SameButLen.exec_alike {s s' : State} (h : SameButLen s s') (i : Instr) : StepsAlike (exec i s) (exec i s') := by
  have haddr : instrAddress s' = instrAddress s := by rw [instrAddress, h.1, instrAddress]
  have hscan : (scanOperands i s).Alike (scanOperands i s') := h.scanFrom_alike i.operands 0 s.len s'.len
  cases hs : scanOperands i s <;> cases hs' : scanOperands i s' <;> rw [hs, hs'] at hscan
  case clear.clear n n' =>
    obtain ⟨u, hu, hd, he⟩ := exec_of_clear hs
    obtain ⟨u', hu', hd', he'⟩ := exec_of_clear hs'
    rw [he, he', haddr]
    exact (h.instrFinish_alike (h.afterOperands hu hu') (hu.len_eq.symm ▸ hd) (hu'.len_eq.symm ▸ hd') _).conclude _
  case stops.stops f ip n f' ip' n' =>
    obtain ⟨rfl, rfl⟩ := hscan
    obtain ⟨t, he, ht⟩ := firstFailingOperandCheckIsTaken i s f ip n hs
    obtain ⟨t', he', ht'⟩ := firstFailingOperandCheckIsTaken i s' f ip n' hs'
    rw [he, he']
    exact (h.faultsWith ht ht').stepsAlike
  all_goals exact hscan.elim

/-- Two fronts of a step: the same instruction, or the end of both steps. -/
def Fetched.Alike : Fetched → Fetched → Prop
  | .run i t, .run i' t' => i = i' ∧ SameButLen t t'
  | .stop t, .stop t' => SameButLen t t'
  | _, _ => False

theorem SameButLen.fetchInstr_alike {s s' : State} (h : SameButLen s s') : (fetchInstr s).Alike (fetchInstr s') := by
  have hip : s'.ip = s.ip := by rw [h.1]
  have hlimit : s'.cfg.memLimit = s.cfg.memLimit := by rw [h.1]
  by_cases hb : s.ip < s.cfg.memLimit
  · have hb' : s'.ip < s'.cfg.memLimit := by rwa [hip, hlimit]
    simp only [fetchInstr, fetchRaw_inBounds hb, fetchRaw_inBounds hb', hip, h.2 s.ip]
    split
    · exact ⟨rfl, h.setIp _⟩
    · exact (h.setIp _).raiseFault _ _
  · have hb' : ¬ s'.ip < s'.cfg.memLimit := by rwa [hip, hlimit]
    simp only [fetchInstr, fetchRaw_outOfBounds hb, fetchRaw_outOfBounds hb', hip]
    exact h.raiseFault _ _

/-- Settles O33: the operands of the two states scan alike and leave states alike, and so does the rest of the
instruction; a waiting IN has its destination allocated in both by the invariant. -/
theorem readGrowthShowsInLengthOnly : Obligations.ReadGrowthShowsInLengthOnly := by
  intro s s' t hinv hinv' h ht
  suffices hsteps : StepsAlike (step s) (step s') from hsteps t ht
  have hrun' : s'.run = s.run := by rw [h.1]
  have hp' : s'.pending = s.pending := by rw [h.1]
  have hfront := h.fetchInstr_alike
  rcases step_branches s with hrun | hrun | ⟨hrun, p, hp⟩ | ⟨hrun, hp, hf⟩
  · rw [step_of_halted hrun, step_of_halted (hrun'.trans hrun)]
    exact h.stepsAlike
  · rw [step_of_faulted hrun] at ht
    cases ht
  · obtain ⟨-, hd⟩ := hinv.pendingReady p hp
    obtain ⟨-, hd'⟩ := hinv'.pendingReady p (hp'.trans hp)
    rw [step_of_pending hrun hp, step_of_pending (hrun'.trans hrun) (hp'.trans hp)]
    exact (h.receiveInput_alike _ hd hd').conclude _
  · cases hf : fetchInstr s <;> cases hf' : fetchInstr s' <;> rw [hf, hf'] at hfront
    case run.run i u i' u' =>
      obtain ⟨rfl, hu⟩ := hfront
      rw [step_of_fetch_run hrun hp hf, step_of_fetch_run (hrun'.trans hrun) (hp'.trans hp) hf']
      exact hu.exec_alike i
    case stop.stop u u' =>
      rw [step_of_fetch_stop hrun hp hf, step_of_fetch_stop (hrun'.trans hrun) (hp'.trans hp) hf']
      exact hfront.stepsAlike
    all_goals exact hfront.elim

end Sys2Proof.Machine
end
